-- ==== Sys2Proof/Word.lean ====
section
/-! DEFINITION. The widths the spec gives values: a byte of the stream, a channel value, a channel index. -/

namespace Sys2Proof

/-- One byte of the output stream, 8 bits (rule R8). -/
abbrev Byte := BitVec 8

/-- A channel value: a 16-bit unsigned PWM duty cycle (rules R8 and R11, parameter `CHW` of rule R6). -/
abbrev Duty := BitVec 16

/-- A channel index on the command port: `IDXW` = 16 bits, unsigned (rules R6 and R51, decision D3). -/
abbrev Chan := BitVec 16

end Sys2Proof
end

