-- ==== Sys2Proof/Config.lean ====
section
/-! DEFINITION. The parameters of rule R6 (spec/00_scope.md): constants of this hardware, and the OPEN transport mode. -/

namespace Sys2Proof

/-- The order in which the transport shifts the bits of a byte out (rule R68 (a)). -/
inductive BitOrder where
  | msbFirst
  | lsbFirst
  deriving DecidableEq, Repr

/-- The transport configuration record carried by a `TConfig` event (rule R68). -/
structure TransportConfig where
  bitOrder  : BitOrder
  clkBaseHz : Nat
  clkDiv    : Nat
  mode      : Nat
  deriving DecidableEq, Repr

namespace Config

/-- `NCH`: channels per IC (rule R6). -/
def nch : Nat := 12

/-- `FRAME_BYTES`: bytes sent per IC per flush, 4 + 12 x 2 (rules R6 and R46). -/
def frameBytes : Nat := 28

/-- `NMAX`: the largest admitted chain count, floor(2^16 / 12) (rules R6 and R15, decision D2). -/
def nmax : Nat := 5461

/-- One line of the assembly of rule R50: shift the word left and OR the next field in. -/
def packField (w : BitVec 32) (width : Nat) (field : BitVec 32) : BitVec 32 := (w <<< width) ||| field

/-- `CFG`'s default, assembled by the shift and OR sequence of rule R50 (conflict C1, decision D4): the
write marker 0x25, the five mode flags 0x16, three brightness-control fields 0x7F.
The value is the spec's own resolution of a contradiction in its source: assumption 5. -/
def cfgWord : BitVec 32 :=
  packField (packField (packField (packField 0x25 5 0x16) 7 0x7F) 7 0x7F) 7 0x7F

/-- `CLK_BASE_HZ`: informative (rules R6 and R68 (b)). -/
def clkBaseHz : Nat := 60000000

/-- `CLK_DIV`: informative (rules R6 and R68 (b)). -/
def clkDiv : Nat := 64

/-- `TMODE`, the transport's clock polarity and phase: OPEN (rules R6 and R68 (c), decision D17).
A free value: nothing constrains it (assumption 6). -/
opaque tmode : Nat

/-- `TCFG`, the constant record every performed BEGIN emits (rule R68). -/
def tcfg : TransportConfig := ⟨.msbFirst, clkBaseHz, clkDiv, tmode⟩

end Config

end Sys2Proof
end

