-- ==== Sys2Proof/Syntax.lean ====
section
/-! DEFINITION. The operations of the opcode table, and the words that carry them. -/

namespace Sys2Proof

/-- One constructor per row of spec/opcode_table.json. -/
inductive Instr where
  /-- CONSTRUCT, the reset event, with the 13-bit reset parameter word (rules R63 and R65). -/
  | construct (n : BitVec 13)
  /-- BEGIN, the one-time transport set-up (rule R67). -/
  | begin
  /-- SETPCT: a channel index and the 32 bits of a binary32 percentage (rule R76). -/
  | setpct (chan : Chan) (arg : BitVec 32)
  /-- SETPWM: a channel index and a duty cycle (rule R80). -/
  | setpwm (chan : Chan) (val : Duty)
  /-- FLUSH (rule R93). -/
  | flush
  /-- WRITE_FRAME, the block's OUTPUT: the frame of one IC, the channel values listed from local channel 0
  to local channel 11 (rule R48). The header is not an operand: it is `CFG` (rule R57). -/
  | writeFrame (v : List Duty)
  deriving DecidableEq, Repr

/-- The three formats of rule R45 that carry an operation. -/
inductive CodeWord where
  /-- `RST13`, the reset parameter word (rule R63). -/
  | rst13 (n : BitVec 13)
  /-- `CMD51`, the command word (rule R51). -/
  | cmd51 (w : BitVec 51)
  /-- `WIRE224`, the output frame read as a number whose most significant bit is first in time (rule R48). -/
  | wire224 (w : BitVec 224)
  deriving DecidableEq, Repr

/-- What the host can present to the block: the reset event with its parameter word, or a command word.
A wire frame is output only and cannot be presented (rule R52). -/
inductive PortWord where
  | reset (n : BitVec 13)
  | command (w : BitVec 51)
  deriving DecidableEq, Repr

end Sys2Proof
end

