-- ==== Sys2Proof/WellFormed.lean ====
section
/-! DEFINITION. Which instruction terms stand for words of the encodings. -/

namespace Sys2Proof

/-- The one check the operand types leave over: a frame holds exactly the twelve channels of one IC
(rules R47 and R48). Every value of the other operands has an encoding (rules R51, R57 and R63). -/
def Instr.wellFormed : Instr → Bool
  | .construct _ => true
  | .begin => true
  | .setpct _ _ => true
  | .setpwm _ _ => true
  | .flush => true
  | .writeFrame v => v.length == Config.nch

end Sys2Proof
end

