-- ==== Sys2Proof/Decode.lean ====
section
/-! DEFINITION. The decoder of the three word formats, total and rejecting by name; the encoder; the opcode map. -/

namespace Sys2Proof

/-- Why a word is no instruction (rules R52 and R56, and the fixed header of the WRITE_FRAME row). -/
inductive Illegal where
  /-- `op` is one of 100 to 111. -/
  | reservedOp (op : BitVec 3)
  /-- A BEGIN word with a nonzero bit among `cmd[47:0]`. -/
  | beginReserved
  /-- A SETPWM word with a nonzero bit among `cmd[31:16]`. -/
  | setpwmReserved
  /-- A FLUSH word with a nonzero bit among `cmd[47:0]`. -/
  | flushReserved
  /-- A 224-bit word whose first 32 bits are not the configuration word. -/
  | wireHeader
  deriving DecidableEq, Repr

/-- `op`, `cmd[50:48]` (rule R51). -/
def cmdOp (w : BitVec 51) : BitVec 3 := w.extractLsb' 48 3

/-- `chan`, `cmd[47:32]` (rule R51). -/
def cmdChan (w : BitVec 51) : Chan := w.extractLsb' 32 16

/-- `arg`, `cmd[31:0]` (rule R51). -/
def cmdArg (w : BitVec 51) : BitVec 32 := w.extractLsb' 0 32

/-- `cmd[47:0]`, reserved zero in BEGIN and FLUSH (rule R56). -/
def cmdRest (w : BitVec 51) : BitVec 48 := w.extractLsb' 0 48

/-- `cmd[31:16]`, reserved zero in SETPWM (rule R56). -/
def cmdArgHi (w : BitVec 51) : BitVec 16 := w.extractLsb' 16 16

/-- `cmd[15:0]`, the duty cycle of SETPWM (rule R51). -/
def cmdVal (w : BitVec 51) : Duty := w.extractLsb' 0 16

/-- Decoding of a command word (rules R52, R55 and R56). -/
def decodeCmd (w : BitVec 51) : Except Illegal Instr :=
  if cmdOp w = 0b000#3 then
    if cmdRest w = 0#48 then .ok .begin else .error .beginReserved
  else if cmdOp w = 0b001#3 then
    .ok (.setpct (cmdChan w) (cmdArg w))
  else if cmdOp w = 0b010#3 then
    if cmdArgHi w = 0#16 then .ok (.setpwm (cmdChan w) (cmdVal w)) else .error .setpwmReserved
  else if cmdOp w = 0b011#3 then
    if cmdRest w = 0#48 then .ok .flush else .error .flushReserved
  else
    .error (.reservedOp (cmdOp w))

/-- Local channel `j` of a 224-bit frame: bits `t = 32 + 16(11 - j)` and the fifteen after it in time,
which are bits `16j + 15` down to `16j` of the number (rule R48). -/
def wireChannel (w : BitVec 224) (j : Nat) : Duty := w.extractLsb' (16 * j) 16

/-- Reading of a wire frame (rule R48): the header is the configuration word, the rest the channels. -/
def decodeWire (w : BitVec 224) : Except Illegal Instr :=
  if w.extractLsb' 192 32 = Config.cfgWord then
    .ok (.writeFrame ((List.range Config.nch).map (wireChannel w)))
  else
    .error .wireHeader

/-- The decoder, total on the words of every format. -/
def decode : CodeWord → Except Illegal Instr
  | .rst13 n => .ok (.construct n)
  | .cmd51 w => decodeCmd w
  | .wire224 w => decodeWire w

/-- The format a word of the port is written in. -/
def PortWord.code : PortWord → CodeWord
  | .reset n => .rst13 n
  | .command w => .cmd51 w

/-- A command word from its three fields (rule R51). -/
def cmdWord (op : BitVec 3) (chan : Chan) (arg : BitVec 32) : BitVec 51 := op ++ chan ++ arg

/-- A frame as a 224-bit number: the header, then local channel 11 down to local channel 0 (rule R48). -/
def wireWord (v : List Duty) : BitVec 224 :=
  v.reverse.foldl (fun acc d => (acc <<< 16) ||| d.setWidth 224) (Config.cfgWord.setWidth 224)

/-- The encoder (rules R48, R62 and R63). -/
def encode : Instr → CodeWord
  | .construct n => .rst13 n
  | .begin => .cmd51 (cmdWord 0b000#3 0#16 0#32)
  | .setpct chan arg => .cmd51 (cmdWord 0b001#3 chan arg)
  | .setpwm chan val => .cmd51 (cmdWord 0b010#3 chan (val.setWidth 32))
  | .flush => .cmd51 (cmdWord 0b011#3 0#16 0#32)
  | .writeFrame v => .wire224 (wireWord v)

/-- One row of the opcode map of rule R52. -/
structure OpcodeRow where
  mnemonic : String
  pattern  : BitVec 51
  mask     : BitVec 51
  deriving DecidableEq, Repr

/-- The opcode map of rule R52, with its match and mask columns. -/
def opcodeMap : List OpcodeRow :=
  [⟨"BEGIN", 0x0000000000000, 0x7FFFFFFFFFFFF⟩,
   ⟨"SETPCT", 0x1000000000000, 0x7000000000000⟩,
   ⟨"SETPWM", 0x2000000000000, 0x70000FFFF0000⟩,
   ⟨"FLUSH", 0x3000000000000, 0x7FFFFFFFFFFFF⟩]

/-- A word selects a row when `cmd & mask = match` (rule R52). -/
def OpcodeRow.selects (r : OpcodeRow) (w : BitVec 51) : Bool := w &&& r.mask == r.pattern

/-- The mnemonic of the opcode table for each operation. -/
def Instr.mnemonic : Instr → String
  | .construct _ => "CONSTRUCT"
  | .begin => "BEGIN"
  | .setpct _ _ => "SETPCT"
  | .setpwm _ _ => "SETPWM"
  | .flush => "FLUSH"
  | .writeFrame _ => "WRITE_FRAME"

/-- The pseudo-operation SETLC of rule R61: local channel `j` of IC `k`. It has no encoding of its own, and
no expansion where `j` is no local channel or the index does not fit the command word. -/
def setlc (k j : Nat) (val : Duty) : Option Instr :=
  if j < Config.nch ∧ Config.nch * k + j < 2 ^ 16 then
    some (.setpwm (BitVec.ofNat 16 (Config.nch * k + j)) val)
  else
    none

/-- The bits of a table word as the format that has them: `RST13` in up to 16 bits, `CMD51` in up to 64,
`WIRE224` above. None where a bit beyond the format is set. -/
def tableCode (nbits w : Nat) : Option CodeWord :=
  if nbits ≤ 16 then
    if w < 2 ^ 13 then some (.rst13 (BitVec.ofNat 13 w)) else none
  else if nbits ≤ 64 then
    if w < 2 ^ 51 then some (.cmd51 (BitVec.ofNat 51 w)) else none
  else
    if w < 2 ^ 224 then some (.wire224 (BitVec.ofNat 224 w)) else none

/-- The instruction the decoder reads from a word numbered as spec/opcode_table.json numbers it. -/
def decodeTableWord (nbits w : Nat) : Option Instr :=
  match tableCode nbits w with
  | some c => (decode c).toOption
  | none => none

end Sys2Proof
end

