-- ==== Sys2Proof/Machine/State.lean ====
section
/-! DEFINITION. The block's state (rule R10), the record of its interface (rules R7 and R143), and reset. -/

namespace Sys2Proof.Machine

/-- The status of a response (rule R110). Codes 6 and 7 are never produced and have no constructor. -/
inductive Status where
  | ok
  | unchanged
  | range
  | config
  | illegal
  | operand
  deriving DecidableEq, Repr

/-- The response to one command: the source's boolean and the status (rules R8 and R54). -/
structure Response where
  ret    : Bool
  status : Status
  deriving DecidableEq, Repr

/-- What the host gets back from one interaction: a command's response, or the result of the reset event,
`Driver` or `ConfigError` (rules R65, R112 and R141). -/
inductive Reply where
  | response (r : Response)
  | driver
  | configError
  deriving DecidableEq, Repr

/-- The output events of rule R7. -/
inductive Event where
  | tConfig (rec : TransportConfig)
  | critEnter
  | tx (b : Byte)
  | critExit
  deriving DecidableEq, Repr

/-- The lifecycle states of rules R66 and R120. -/
inductive Mode where
  | unbuilt
  | built
  | ready
  deriving DecidableEq, Repr

/-- How much of a flush one step carries out: the whole of it, the atomic form rule R93 calls normative; one frame; or one
byte, the refinement rule R97 allows. It is the model's own, no state of the block, and no operation writes it
(assumption 17). -/
inductive Grain where
  | flush
  | frame
  | byte
  deriving DecidableEq, Repr

/-- The channel space (rules R30 and R32): pairs of a channel index and the 16-bit value of that slot,
indices strictly rising, no entry equal to 0, which is what an unlisted slot reads as (rules R11 and R24). -/
abbrev Memory := List (Nat × Duty)

/-- The state of the block, the items of rule R10 and no other. -/
structure Block where
  /-- `VALID` (rule R14). -/
  valid  : Bool
  /-- `NCHAIN`, the chain count (rule R15). -/
  nchain : Nat
  /-- `MAXCH`, the highest valid channel index (rule R16). -/
  maxch  : BitVec 16
  /-- `CFG`, the configuration word (rule R17). -/
  cfg    : BitVec 32
  /-- `INIT` (rule R18). -/
  init   : Bool
  /-- `ch`, the channel buffer (rules R11 to R13). -/
  ch     : Memory
  /-- `BUSY`, the flush sequencer's busy bit (rule R19). -/
  busy   : Bool
  /-- `POS`, the flush sequencer's byte position (rule R19). -/
  pos    : Nat
  deriving DecidableEq, Repr

/-- The machine: the block, the grain of its steps, the host's command stream still to be taken (rules R38 and R136), and
the record of what the block has answered and emitted, oldest first (rules R7 and R143). -/
structure State extends Block where
  grain   : Grain
  port    : List PortWord
  replies : List Reply
  events  : List Event
  deriving DecidableEq, Repr

/-- Why the machine stops with a fault. No step from a state that meets the invariant of Safety.lean does. -/
inductive Fault where
  /-- Raised by FLUSH, by WRITE_FRAME and by a sequencer step where a read would be of an index that is no slot
  of the channel space (rule R31 makes `MemRead` partial). Safe: only a state whose `NCHAIN` and `MAXCH`
  disagree raises it. -/
  | unmappedSlot
  /-- Raised by WRITE_FRAME and by a sequencer step where `BUSY = 1` and `POS` is outside `0..28N - 1`
  (rule R19). Safe: only a state that no run reaches raises it. -/
  | sequencerRange
  deriving DecidableEq, Repr

/-- Why an operation is refused. -/
inductive Refusal where
  /-- Raised by an arm of exec that has no meaning yet; no arm is such an arm now. Safe. -/
  | notModelled (mnemonic : String)
  /-- Raised by WRITE_FRAME for a frame that is not the one the flush in progress emits next: a frame is output
  of a flush and not something the block accepts (rule R52). Safe: the machine's step issues no such frame. -/
  | frameNotDue
  deriving DecidableEq, Repr

/-- Power-on, mode UNBUILT, before the first CONSTRUCT (rule R131): `VALID = 0`, nothing presented, answered or
emitted. The other items are without meaning there; each holds 0 (assumption 1). The reset values of rule R24
are those CONSTRUCT, the reset event, leaves. A FLUSH is one step, the normative form (assumption 17). -/
def State.reset : State where
  valid := false
  nchain := 0
  maxch := 0
  cfg := 0
  init := false
  ch := []
  busy := false
  pos := 0
  grain := .flush
  port := []
  replies := []
  events := []

end Sys2Proof.Machine
end

