-- ==== Sys2Proof/Machine/Flags.lean ====
section
/-! DEFINITION. The status computations: the block has no condition codes (rule R20), only the status and the boolean of a
response (rules R54 and R110) and the lifecycle mode (rules R66 and R120). -/

namespace Sys2Proof.Machine

/-- The numeric status codes of rule R110. -/
def Status.code : Status → BitVec 3
  | .ok => 0
  | .unchanged => 1
  | .range => 2
  | .config => 3
  | .illegal => 4
  | .operand => 5

/-- `RSP4 = ret ++ status[2:0]` (rule R54). -/
def Response.rsp4 (r : Response) : BitVec 4 := BitVec.ofBool r.ret ++ r.status.code

/-- The status of a setter on a built block (rules R80 to R82): the range test on unsigned numbers first, then
the comparison with the stored value. -/
def setterStatus (maxch : BitVec 16) (chan : Chan) (old val : Duty) : Status :=
  if maxch < chan then .range
  else if old = val then .unchanged
  else .ok

/-- The lifecycle mode (rules R66 and R120). -/
def State.mode (s : State) : Mode :=
  if s.valid then (if s.init then .ready else .built) else .unbuilt

end Sys2Proof.Machine
end

