-- ==== Sys2Proof/Machine/Ops.lean ====
section
/-! DEFINITION. The shared operations: the channel space, the response, an error (`raise`), the events, the host's port. -/

namespace Sys2Proof.Machine

/-- What the slot at an index holds; an unlisted slot holds the reset value 0 (rules R11 and R24). -/
def Memory.read : Memory → Nat → Duty
  | [], _ => 0#16
  | (a, d) :: m, i => if a = i then d else Memory.read m i

/-- `ch[i] <- v` on the canonical list: the entry goes in its place, and a value of 0 takes it out. -/
def Memory.write : Memory → Nat → Duty → Memory
  | [], i, v => if v = 0#16 then [] else [(i, v)]
  | (a, d) :: m, i, v =>
    if i < a then (if v = 0#16 then (a, d) :: m else (i, v) :: (a, d) :: m)
    else if i = a then (if v = 0#16 then m else (i, v) :: m)
    else (a, d) :: Memory.write m i v

/-- The canonical form: indices strictly rising, no entry equal to what an unlisted slot reads as. -/
abbrev Memory.wf (m : Memory) : Prop :=
  m.Pairwise (fun p q => p.1 < q.1) ∧ ∀ p ∈ m, p.2 ≠ 0#16

/-- The channel space of a built block is `0..MAXCH` (rules R30 and R32); an unbuilt block has none (rule R14). -/
def State.mapped (s : State) (i : Nat) : Bool := s.valid && decide (i ≤ s.maxch.toNat)

/-- `MemRead(i, 2)`, partial (rule R31). -/
def State.memRead (s : State) (i : Nat) : Option Duty :=
  if s.mapped i then some (s.ch.read i) else none

/-- `MemWrite(i, 2, v)` for an index the caller has tested (rules R31 and R87). -/
def State.memWrite (s : State) (i : Nat) (v : Duty) : State := { s with ch := s.ch.write i v }

/-- Every slot of the `NCHAIN` ICs is mapped: the reads a flush makes stay in the channel space (rule R31). -/
def State.bufferMapped (s : State) : Bool :=
  s.valid && decide (Config.nch * s.nchain ≤ s.maxch.toNat + 1)

/-- `emit`, for a list of events in order (rule R8). -/
def State.emit (s : State) (es : List Event) : State := { s with events := s.events ++ es }

/-- The reply of an interaction goes to the host. -/
def State.reply (s : State) (r : Reply) : State := { s with replies := s.replies ++ [r] }

/-- `return (ret, status)` (rule R8). -/
def State.respond (s : State) (ret : Bool) (st : Status) : State := s.reply (.response ⟨ret, st⟩)

/-- `raise <status>` (rule R111), the block's only exception: every item keeps the value it had when the command
arrived, no event is emitted, the response is `(0, status)`, control goes nowhere. There is no return from it,
since nothing is saved (rule R119). -/
def raise (st : Status) (s : State) : Host.Outcome State Fault Refusal := .next (s.respond false st)

/-- `SETPWM_core` (rule R80): range test, comparison, write. Shared with SETPCT (rule R76). -/
def setpwmCore (chan : Chan) (val : Duty) (s : State) : Host.Outcome State Fault Refusal :=
  match setterStatus s.maxch chan (s.ch.read chan.toNat) val with
  | .ok => .next ((s.memWrite chan.toNat val).respond true .ok)
  | st => raise st s

/-- The host's command stream with one more word in front, no flush holding it (rule R136), and every operation one step. -/
def State.offer (s : State) (p : PortWord) : State :=
  { s with busy := false, pos := 0, grain := .flush, port := p :: s.port }

end Sys2Proof.Machine
end

