-- ==== Sys2Proof/Machine/Frame.lean ====
section
/-! DEFINITION. The wire encoder as a pure function (rules R33, R34, R46 to R49 and R90 to R92) and the serial bits (rule R99). -/

namespace Sys2Proof.Machine

/-- `bytes32` (rule R90): most significant byte first (rule R33 (a)). -/
def bytes32 (w : BitVec 32) : List Byte :=
  [w.extractLsb' 24 8, w.extractLsb' 16 8, w.extractLsb' 8 8, w.extractLsb' 0 8]

/-- `bytes16` (rule R90): high byte, then low byte (rules R33 (b) and R34). -/
def bytes16 (v : Duty) : List Byte := [v.extractLsb' 8 8, v.extractLsb' 0 8]

/-- The channel values of IC `k`, local channel 0 first: slots `12k` to `12k + 11` (rules R12 and R32). -/
def icSlots (m : Memory) (k : Nat) : List Duty :=
  (List.range Config.nch).map fun j => m.read (Config.nch * k + j)

/-- The bytes of a frame from its header and its channel values: channel 11 goes first (rule R92). -/
def frameOf (cfg : BitVec 32) (v : List Duty) : List Byte := bytes32 cfg ++ v.reverse.flatMap bytes16

/-- `frame(cfg, ch, k)` (rule R90). -/
def frame (cfg : BitVec 32) (m : Memory) (k : Nat) : List Byte := frameOf cfg (icSlots m k)

/-- `stream(cfg, ch, n)` (rule R90): IC 0 first (rule R91). -/
def stream (cfg : BitVec 32) (m : Memory) (n : Nat) : List Byte := (List.range n).flatMap (frame cfg m)

/-- `frame_byte(k, r)` (rule R47). -/
def frameByte (cfg : BitVec 32) (m : Memory) (k r : Nat) : Byte :=
  if r < 4 then cfg.extractLsb' (24 - 8 * r) 8
  else if (r - 4) % 2 = 0 then (m.read (Config.nch * k + (11 - (r - 4) / 2))).extractLsb' 8 8
  else (m.read (Config.nch * k + (11 - (r - 4) / 2))).extractLsb' 0 8

/-- The bits of one `Tx(b)` on the serial line, `b[7]` first (rules R33 (c) and R99). -/
def serialByte (b : Byte) : List Bool := (List.range 8).map fun i => b.getLsbD (7 - i)

/-- The serial bits of a list of bytes, first in time first (rule R99). -/
def serialBits (bs : List Byte) : List Bool := bs.flatMap serialByte

/-- The bytes given to the transport, in order. -/
def txBytes (es : List Event) : List Byte :=
  es.filterMap fun e => match e with
    | .tx b => some b
    | .tConfig _ => none
    | .critEnter => none
    | .critExit => none

end Sys2Proof.Machine
end

