-- ==== Sys2Proof/Machine/Flush.lean ====
section
/-! DEFINITION. FLUSH in its atomic form (rule R93), the flush sequencer (rules R19 and R97), and WRITE_FRAME, the frame a
flush in progress emits (rules R46 to R49). -/

namespace Sys2Proof.Machine

/-- The event list of a performed flush (rules R93 and R94). -/
def flushEvents (s : State) : List Event :=
  .critEnter :: (stream s.cfg s.ch s.nchain).map .tx ++ [.critExit]

/-- FLUSH, atomic form (rules R93 to R95). -/
def execFlush (s : State) : Host.Outcome State Fault Refusal :=
  if s.valid = false then raise .config s
  else if s.init = false then raise .config s
  else if s.bufferMapped then .next ((s.emit (flushEvents s)).respond false .ok)
  else .fault .unmappedSlot

/-- `start` of the refinement of rule R97, enabled at `BUSY = 0`: FLUSH is taken, its first byte is next. While `BUSY = 1`
nothing is taken and nothing changes: FLUSH is held (rule R136). -/
def flushStart (s : State) : Host.Outcome State Fault Refusal :=
  if s.busy then .next s
  else if s.valid = false then raise .config s
  else if s.init = false then raise .config s
  else .next { s.emit [.critEnter] with busy := true, pos := 0 }

/-- `finish` of the refinement of rule R97. -/
def flushFinish (s : State) : State :=
  { s.emit [.critExit] with busy := false, pos := 0 }.respond false .ok

/-- The sequencer has given `n` more bytes to the transport: it moves on, or the flush ends (rule R97). -/
def seqAdvance (n : Nat) (s : State) : State :=
  if s.pos + n = Config.frameBytes * s.nchain then flushFinish s else { s with pos := s.pos + n }

/-- The `n` bytes given to the transport from position `POS` on, where position and slots exist (rules R19 and R31). -/
def seqEmit (bytes : List Byte) (s : State) : Host.Outcome State Fault Refusal :=
  if Config.frameBytes * s.nchain ≤ s.pos then .fault .sequencerRange
  else if s.bufferMapped then .next (seqAdvance bytes.length (s.emit (bytes.map .tx)))
  else .fault .unmappedSlot

/-- `byte` of the refinement of rule R97: one `Tx`. -/
def seqByte (s : State) : Host.Outcome State Fault Refusal :=
  seqEmit [frameByte s.cfg s.ch (s.pos / Config.frameBytes) (s.pos % Config.frameBytes)] s

/-- Where a step of a flush in progress gives a whole frame: at a frame boundary of a machine of that grain. -/
def State.givesFrame (s : State) : Bool :=
  s.busy && decide (s.grain = .frame) && decide (s.pos % Config.frameBytes = 0)

/-- Where an operation taken from the port begins a flush that later steps carry out, in frames or in bytes (rule R97). -/
def State.startsFlush (s : State) (i : Instr) : Bool := decide (i = .flush) && decide (s.grain ≠ .flush)

/-- The frame `v` is the one the flush in progress emits next: its first byte is due, and its channel values are
those of the IC it is for. -/
def frameDue (v : List Duty) (s : State) : Bool :=
  s.busy && decide (s.pos % Config.frameBytes = 0) && decide (v = icSlots s.ch (s.pos / Config.frameBytes))

/-- WRITE_FRAME (rules R48 and R93): the 28 bytes of the frame that is due are given to the transport in order,
under the header `CFG`. It is the 28 `byte` steps of rule R97 taken as one. Any other frame is not something the block emits or accepts. -/
def execWriteFrame (v : List Duty) (s : State) : Host.Outcome State Fault Refusal :=
  if frameDue v s then seqEmit (frameOf s.cfg v) s else .refused .frameNotDue

/-- A buffer that holds the listed values in its first slots. -/
def memoryOf (v : List Duty) : Memory :=
  (v.zipIdx).foldl (fun m p => m.write p.2 p.1) []

/-- A one-IC block in the middle of a flush that goes frame by frame and whose next frame is `v`. -/
def State.flushing (s : State) (v : List Duty) : State :=
  { s with
    valid := true
    nchain := 1
    maxch := 11
    cfg := Config.cfgWord
    init := true
    ch := memoryOf v
    busy := true
    pos := 0
    grain := .frame }

end Sys2Proof.Machine
end

