-- ==== Sys2Proof/Machine/Lifecycle.lean ====
section
/-! DEFINITION. The lifecycle operations CONSTRUCT and BEGIN (spec/40_lifecycle.md). -/

namespace Sys2Proof.Machine

/-- CONSTRUCT for any value of the parameter `CFG` (rules R6, R17 and R65). A rejected count writes `VALID` alone. -/
def constructWith (cfg : BitVec 32) (n : BitVec 13) (s : State) : State :=
  if n.toNat < 1 ∨ Config.nmax < n.toNat then
    { s with valid := false }.reply .configError
  else
    { s with
      nchain := n.toNat
      maxch := BitVec.ofNat 16 (Config.nch * n.toNat - 1)
      cfg := cfg
      ch := []
      init := false
      busy := false
      pos := 0
      valid := true }.reply .driver

/-- CONSTRUCT, the reset event (rules R65, R130 and R131). -/
def execConstruct (n : BitVec 13) (s : State) : Host.Outcome State Fault Refusal :=
  .next (constructWith Config.cfgWord n s)

/-- BEGIN (rules R67 to R69). -/
def execBegin (s : State) : Host.Outcome State Fault Refusal :=
  if s.valid = false then raise .config s
  else if s.init = true then raise .config s
  else .next ({ s.emit [.tConfig Config.tcfg] with init := true }.respond false .ok)

end Sys2Proof.Machine
end

