-- ==== Sys2Proof/Machine/Operands.lean ====
section
/-! DEFINITION. The percent operand of SETPCT: its binary32 decoding (rule R53) and the function SCALE (rule R78). -/

namespace Sys2Proof.Machine

/-- A decoded percent operand (rule R53): NaN, an infinity, or an exact rational. Every finite binary32 value is
`k x 2^-149` for an integer `k`, so `finite k` holds that rational exactly; both zeros are `finite 0`. -/
inductive Percent where
  | nan
  | negInf
  | posInf
  | finite (k : Int)
  deriving DecidableEq, Repr

/-- `s`, `arg[31]` (rule R53). -/
def f32Sign (arg : BitVec 32) : Bool := arg.getLsbD 31

/-- `e`, `arg[30:23]` (rule R53). -/
def f32Exp (arg : BitVec 32) : BitVec 8 := arg.extractLsb' 23 8

/-- `m`, `arg[22:0]` (rule R53). -/
def f32Frac (arg : BitVec 32) : BitVec 23 := arg.extractLsb' 0 23

/-- The magnitude of a finite operand in units of `2^-149`: `m` where `e = 0`, and otherwise
`(2^23 + m) x 2^(e - 1)`, which is `(2^23 + m) x 2^(e - 150)` in those units (rule R53). -/
def f32Units (arg : BitVec 32) : Nat :=
  if f32Exp arg = 0#8 then (f32Frac arg).toNat
  else (2 ^ 23 + (f32Frac arg).toNat) * 2 ^ ((f32Exp arg).toNat - 1)

/-- The binary32 decoding of the percent operand (rule R53, decision D12). -/
def decodePercent (arg : BitVec 32) : Percent :=
  if f32Exp arg = 255#8 then
    if f32Frac arg ≠ 0#23 then .nan
    else if f32Sign arg then .negInf else .posInf
  else if f32Sign arg then .finite (-(f32Units arg : Int)) else .finite (f32Units arg)

/-- 1 in units of `2^-149`. -/
def unitsPerOne : Int := 2 ^ 149

/-- `SCALE` (rule R78, decisions D13 and D14): clamp at 0 and at 100 percent, and between them the floor of the
exact product with 655351/1000. No value for a NaN (rule R77). -/
def scale : Percent → Option Nat
  | .nan => none
  | .negInf => some 0
  | .posInf => some 65535
  | .finite k =>
    if k ≤ 0 then some 0
    else if 100 * unitsPerOne ≤ k then some 65535
    else some (k * 655351 / (1000 * unitsPerOne)).toNat

end Sys2Proof.Machine
end

