-- ==== Sys2Proof/Machine/Update.lean ====
section
/-! DEFINITION. The buffer update operations SETPCT and SETPWM (spec/41_buffer_update.md). -/

namespace Sys2Proof.Machine

/-- SETPCT for any value of the parameter `SCALE` (rules R6 and R76): the operand is examined before the channel. -/
def setpctWith (f : Percent → Option Nat) (chan : Chan) (arg : BitVec 32) (s : State) :
    Host.Outcome State Fault Refusal :=
  if s.valid = false then raise .config s
  else match f (decodePercent arg) with
    | none => raise .operand s
    | some d => setpwmCore chan (BitVec.ofNat 16 d) s

/-- SETPCT (rules R76 to R78). -/
def execSetpct (chan : Chan) (arg : BitVec 32) (s : State) : Host.Outcome State Fault Refusal :=
  setpctWith scale chan arg s

/-- SETPWM (rules R80 to R85). -/
def execSetpwm (chan : Chan) (val : Duty) (s : State) : Host.Outcome State Fault Refusal :=
  if s.valid = false then raise .config s
  else setpwmCore chan val s

end Sys2Proof.Machine
end

