-- ==== Sys2Proof/Machine/Dispatch.lean ====
section
/-! DEFINITION. One arm per constructor of Instr. -/

namespace Sys2Proof.Machine

def exec (i : Instr) (s : State) : Host.Outcome State Fault Refusal :=
  match i with
  | .construct n => Sys2Proof.Machine.execConstruct n s
  | .begin => Sys2Proof.Machine.execBegin s
  | .setpct chan arg => Sys2Proof.Machine.execSetpct chan arg s
  | .setpwm chan val => Sys2Proof.Machine.execSetpwm chan val s
  | .flush => Sys2Proof.Machine.execFlush s
  | .writeFrame v => Sys2Proof.Machine.execWriteFrame v s

end Sys2Proof.Machine
end

