-- ==== Sys2Proof/Machine/Step.lean ====
section
/-! DEFINITION. One step: the flush sequencer while a flush is in progress, else one word of the host's port. -/

namespace Sys2Proof.Machine

/-- One step. While `BUSY = 1` the port is held (rule R136) and the sequencer runs: it gives the transport one byte
(rule R97), or, on a machine of that grain and at a frame boundary, the WRITE_FRAME of the IC whose turn it is.
Otherwise the next word of the port is taken, decoded and executed (rule R7), a FLUSH that goes by frames or bytes is begun
(rule R97), an illegal command word is reported and ignored (rule R56), and with nothing presented the block is idle and
keeps its state (rule R126). -/
def step (s : State) : Host.Outcome State Fault Refusal :=
  if s.busy then
    if s.givesFrame then exec (.writeFrame (icSlots s.ch (s.pos / Config.frameBytes))) s
    else seqByte s
  else
    match s.port with
    | [] => .next s
    | p :: rest =>
      match decode p.code with
      | .ok i => if s.startsFlush i then flushStart { s with port := rest } else exec i { s with port := rest }
      | .error _ => raise .illegal { s with port := rest }

/-- `s` with a word of the opcode table placed so that the very next step runs it: a reset or a command word in
front of the port; for a wire frame, a flush in progress whose next frame it is (assumption 3). -/
def State.withFetchWord (s : State) (nbits w : Nat) : State :=
  match tableCode nbits w with
  | some (.rst13 n) => s.offer (.reset n)
  | some (.cmd51 c) => s.offer (.command c)
  | some (.wire224 f) =>
    match decodeWire f with
    | .ok (.writeFrame v) => s.flushing v
    | _ => s
  | none => s

end Sys2Proof.Machine
end

