-- ==== Sys2Proof/Machine/Text.lean ====
section
/-! DEFINITION. The textual syntax of rule R60, the pseudo-operation of rule R61, and their translation into words (rule R62). -/

namespace Sys2Proof.Machine

/-- A percent literal (rule R60): a signed decimal `digits / 10^places`, an infinity, or nan. -/
inductive PctLiteral where
  | decimal (neg : Bool) (digits places : Nat)
  | inf
  | negInf
  | nan
  deriving DecidableEq, Repr

/-- One line of a program (rules R60 and R61). -/
inductive Line where
  | construct (n : Nat)
  | begin
  | setpct (chan : Nat) (pct : PctLiteral)
  | setpwm (chan val : Nat)
  | flush
  | setlc (k j val : Nat)
  deriving DecidableEq, Repr

/-- `a / b` to the nearest natural number, ties to the even one (rule R60). -/
def roundHalfEven (a b : Nat) : Nat :=
  if 2 * (a % b) < b ∨ (2 * (a % b) = b ∧ a / b % 2 = 0) then a / b else a / b + 1

/-- How many binary places above `2^-149` the last place of a significand for the value `u` (in units of `2^-149`,
rounded down) stands: 0 for a subnormal, so that a normal significand has 24 bits. -/
def f32Shift (u : Nat) : Nat := u.log2 - 23

/-- The binary32 pattern, without its sign, nearest to `a / b` (rule R60); a value that rounds beyond the largest
finite one gives the pattern of an infinity (assumption 9). A significand that rounds up to 25 bits carries into the
exponent field, which is the pattern of the next value up. -/
def f32Nearest (a b : Nat) : Nat :=
  let sh := f32Shift (a * 2 ^ 149 / b)
  min (sh * 2 ^ 23 + roundHalfEven (a * 2 ^ 149) (b * 2 ^ sh)) 0x7F800000

/-- `bits32` (rule R62): the pattern of a literal. The pattern of `nan` is the one of rule R79's table. -/
def bits32 : PctLiteral → BitVec 32
  | .decimal neg digits places => BitVec.ofBool neg ++ BitVec.ofNat 31 (f32Nearest digits (10 ^ places))
  | .inf => 0x7F800000
  | .negInf => 0xFF800000
  | .nan => 0x7FC00000

/-- A natural number as a field of `w` bits; none where it does not fit. -/
def fieldOf (w n : Nat) : Option (BitVec w) := if n < 2 ^ w then some (BitVec.ofNat w n) else none

/-- The operation a line stands for (rules R60 to R62); none where an operand has no encoding. -/
def Line.instr : Line → Option Instr
  | .construct n => (fieldOf 13 n).map .construct
  | .begin => some .begin
  | .setpct chan pct => (fieldOf 16 chan).map fun c => .setpct c (bits32 pct)
  | .setpwm chan val =>
    match fieldOf 16 chan, fieldOf 16 val with
    | some c, some v => some (.setpwm c v)
    | _, _ => none
  | .flush => some .flush
  | .setlc k j val =>
    match fieldOf 16 val with
    | some v => Sys2Proof.setlc k j v
    | none => none

/-- The word of the port an encoding is presented as; a wire frame is presented on none (rule R52). -/
def portWord : CodeWord → Option PortWord
  | .rst13 n => some (.reset n)
  | .cmd51 w => some (.command w)
  | .wire224 _ => none

/-- A line as a word of the port (rule R62). -/
def Line.word (l : Line) : Option PortWord :=
  match l.instr with
  | some i => portWord (encode i)
  | none => none

/-- The separators inside a line. -/
def isBlank (c : Char) : Bool := c == ' ' || c == '\t' || c == '\r' || c == '\n'

/-- Text without the blanks at its two ends. -/
def trimBlanks (cs : List Char) : List Char := ((cs.dropWhile isBlank).reverse.dropWhile isBlank).reverse

/-- A line of text up to its comment, which runs from `;` to the end of the line (rule R60). -/
def stripComment (cs : List Char) : List Char := trimBlanks (cs.takeWhile (· ≠ ';'))

/-- The value of a digit in base 10 or 16. -/
def digitOf (base : Nat) (c : Char) : Option Nat :=
  let n := c.toNat
  let d := if 48 ≤ n ∧ n ≤ 57 then n - 48
    else if 65 ≤ n ∧ n ≤ 70 then n - 55
    else if 97 ≤ n ∧ n ≤ 102 then n - 87
    else base
  if d < base then some d else none

/-- The value of a list of digits continued from `acc`. -/
def digitsFrom (base : Nat) : Nat → List Char → Option Nat
  | acc, [] => some acc
  | acc, c :: cs =>
    match digitOf base c with
    | some d => digitsFrom base (acc * base + d) cs
    | none => none

/-- An unsigned integer, decimal, or hexadecimal with the prefix `0x` (rule R60). -/
def parseNat : List Char → Option Nat
  | [] => none
  | '0' :: 'x' :: c :: cs => digitsFrom 16 0 (c :: cs)
  | c :: cs => digitsFrom 10 0 (c :: cs)

/-- The digits of an unsigned decimal literal and how many stand after the point. -/
def parseDecimal (cs : List Char) : Option (Nat × Nat) :=
  let whole := cs.takeWhile (· ≠ '.')
  let frac := (cs.dropWhile (· ≠ '.')).drop 1
  if whole ++ frac = [] then none
  else (digitsFrom 10 0 (whole ++ frac)).map fun d => (d, frac.length)

/-- A percent literal: a decimal, optionally signed, or one of `inf`, `-inf`, `nan` (rule R60). -/
def parsePct (cs : List Char) : Option PctLiteral :=
  if cs = ['i', 'n', 'f'] then some .inf
  else if cs = ['-', 'i', 'n', 'f'] then some .negInf
  else if cs = ['n', 'a', 'n'] then some .nan
  else match cs with
    | '-' :: ds => (parseDecimal ds).map fun p => .decimal true p.1 p.2
    | '+' :: ds => (parseDecimal ds).map fun p => .decimal false p.1 p.2
    | ds => (parseDecimal ds).map fun p => .decimal false p.1 p.2

/-- The text between commas. -/
def splitComma : List Char → List (List Char)
  | [] => [[]]
  | c :: cs =>
    match splitComma cs with
    | [] => [[c]]
    | w :: ws => if c = ',' then [] :: w :: ws else (c :: w) :: ws

/-- The operands of a line, separated by commas; none in an empty text. -/
def operands (cs : List Char) : List (List Char) :=
  if trimBlanks cs = [] then [] else (splitComma cs).map trimBlanks

/-- The integer operands of a line. -/
def parseNats (ops : List (List Char)) : Option (List Nat) := ops.mapM parseNat

/-- A line from its mnemonic and its operands (rules R60 and R61). -/
def lineOf (mnemonic : List Char) (ops : List (List Char)) : Option Line :=
  if mnemonic = "SETPCT".toList then
    match ops with
    | [c, p] =>
      match parseNat c, parsePct p with
      | some n, some l => some (.setpct n l)
      | _, _ => none
    | _ => none
  else match parseNats ops with
    | some [] =>
      if mnemonic = "BEGIN".toList then some .begin
      else if mnemonic = "FLUSH".toList then some .flush
      else none
    | some [n] => if mnemonic = "CONSTRUCT".toList then some (.construct n) else none
    | some [c, v] => if mnemonic = "SETPWM".toList then some (.setpwm c v) else none
    | some [k, j, v] => if mnemonic = "SETLC".toList then some (.setlc k j v) else none
    | _ => none

/-- A line of text that is neither blank nor a comment alone (rule R60). -/
def parseLine (cs : List Char) : Option Line :=
  lineOf (cs.takeWhile (fun c => !isBlank c)) (operands (cs.dropWhile (fun c => !isBlank c)))

/-- A program as the words it presents to the port, one line after the other; a line that is blank or a comment alone
presents nothing; none where a line has no reading (rule R60). The rule gives CONSTRUCT its meaning on the first line; that
on any later line it is one more reset word, and that a program may go without it, is the model's choice (assumption 9). -/
def assemble : List String → Option (List PortWord)
  | [] => some []
  | l :: ls =>
    if stripComment l.toList = [] then assemble ls
    else match parseLine (stripComment l.toList), assemble ls with
      | some line, some ws => line.word.map (· :: ws)
      | _, _ => none

end Sys2Proof.Machine
end

