-- ==== Sys2Proof/Safety.lean ====
section
/-! DEFINITION. What counts as a safe run: the invariant of the state, the protocol toward the two collaborators, and the
vocabulary of the statements. -/

namespace Sys2Proof

/-- The four command words of rule R127; CONSTRUCT is the reset event and WRITE_FRAME output. -/
def Instr.isCommand : Instr → Bool
  | .construct _ => false
  | .begin => true
  | .setpct _ _ => true
  | .setpwm _ _ => true
  | .flush => true
  | .writeFrame _ => false

/-- The setters (rule R75). -/
def Instr.isSetter : Instr → Bool
  | .construct _ => false
  | .begin => false
  | .setpct _ _ => true
  | .setpwm _ _ => true
  | .flush => false
  | .writeFrame _ => false

/-- The channel a setter names. -/
def Instr.channel : Instr → Option Nat
  | .construct _ => none
  | .begin => none
  | .setpct c _ => some c.toNat
  | .setpwm c _ => some c.toNat
  | .flush => none
  | .writeFrame _ => none

end Sys2Proof

namespace Sys2Proof.Machine

/-- What the two outside devices of rule R123 have seen: whether the transport has been configured, and whether the
exclusion primitive is held. -/
structure LineState where
  configured : Bool
  held       : Bool
  deriving DecidableEq, Repr

/-- The devices' protocol (rules R94 and R123): a transport is configured outside a critical section; a section is entered
only when none is held and the transport is configured; bytes are sent only inside a section; only a held one is released. -/
def LineState.after (l : LineState) : Event → Option LineState
  | .tConfig _ => if l.held then none else some { l with configured := true }
  | .critEnter => if l.held || !l.configured then none else some { l with held := true }
  | .tx _ => if l.held then some l else none
  | .critExit => if l.held then some { l with held := false } else none

/-- What the devices have seen after a list of events from `l` on; none where the list breaks their protocol. -/
def LineState.run (l : LineState) : List Event → Option LineState
  | [] => some l
  | e :: es => (l.after e).bind fun l' => l'.run es

/-- Before any event: nothing configured, nothing held (rule R130). -/
def LineState.initial : LineState := ⟨false, false⟩

/-- The invariant of every reachable state (rules R15 to R17, R19, R21 and R123). -/
structure Inv (s : State) : Prop where
  /-- The channel space is in its canonical form. -/
  canonical : s.ch.wf
  /-- Rule R15: a built block has an admitted chain count. -/
  count : s.valid = true → 1 ≤ s.nchain ∧ s.nchain ≤ Config.nmax
  /-- Rule R21 (c). -/
  highest : s.valid = true → s.maxch.toNat + 1 = Config.nch * s.nchain
  /-- Rule R21 (a): a built block has no slot beyond the `12 x NCHAIN` of its channel space. -/
  slots : s.valid = true → ∀ p ∈ s.ch, p.1 < Config.nch * s.nchain
  /-- Rule R21 (d). -/
  configWord : s.valid = true → s.cfg = Config.cfgWord
  /-- Rule R19: outside a flush `POS = 0`. -/
  idle : s.busy = false → s.pos = 0
  /-- Rule R19: a flush in progress is that of a block that may flush, at a byte of its stream. -/
  flushing : s.busy = true → s.valid = true ∧ s.init = true ∧ s.pos < Config.frameBytes * s.nchain
  /-- Rules R94 and R123: the events so far keep the devices' protocol, the section is held exactly during a flush, and an
  initialised block has configured the transport. -/
  line : ∃ l, LineState.initial.run s.events = some l ∧ l.held = s.busy ∧
    (s.valid = true → s.init = true → l.configured = true)

/-- A safe run: every one of its first `n` steps answers a next state. -/
def SafeFor (n : Nat) (s : State) : Prop := ∃ t, Host.Core.run core n s = .next t

/-- A list of operations one after the other, stopping at the first fault or refusal. -/
def execAll : List Instr → State → Host.Outcome State Fault Refusal
  | [], s => .next s
  | i :: is, s =>
    match exec i s with
    | .next t => execAll is t
    | .fault r => .fault r
    | .refused r => .refused r

/-- The sequencer run for `n` bytes (rule R97). -/
def seqBytes : Nat → State → Host.Outcome State Fault Refusal
  | 0, s => .next s
  | n + 1, s =>
    match seqByte s with
    | .next t => seqBytes n t
    | .fault r => .fault r
    | .refused r => .refused r

/-- The value the last entry for channel `i` in a list of setter operands gives, or `d` where there is none (rule R38 (a)). -/
def lastSet (d : Duty) (i : Nat) : List (Chan × Duty) → Duty
  | [] => d
  | (c, v) :: cs => lastSet (if c.toNat = i then v else d) i cs

/-- The rational a finite percent stands for (rule R53). -/
def Percent.toRat : Percent → Option ℚ
  | .nan => none
  | .negInf => none
  | .posInf => none
  | .finite k => some ((k : ℚ) / 2 ^ 149)

/-- The order of the percents, infinities at the two ends; a NaN is in no order with anything (rules R77 and R79). -/
def Percent.le : Percent → Percent → Prop
  | .nan, _ => False
  | _, .nan => False
  | .negInf, _ => True
  | _, .posInf => True
  | .finite j, .finite k => j ≤ k
  | .posInf, .negInf => False
  | .posInf, .finite _ => False
  | .finite _, .negInf => False

/-- Two states a host cannot tell apart by what it has been answered and by what has been emitted: an unbuilt block's other
items are without meaning (rule R131). -/
structure Alike (s t : State) : Prop where
  grain   : s.grain = t.grain
  port    : s.port = t.port
  replies : s.replies = t.replies
  events  : s.events = t.events
  valid   : s.valid = t.valid
  block   : s.valid = true → s.toBlock = t.toBlock
  idle    : s.valid = false → s.busy = false ∧ t.busy = false

end Sys2Proof.Machine
end

