-- ==== Sys2Proof/Certificates/Slice0/Obligations.lean ====
section
/-! DEFINITION. The statements about the model; each docstring names the rule of spec/ it formalises. -/

open Sys2Proof Sys2Proof.Machine

/-! ### Reset and lifecycle -/

/-- The power-on state meets the invariant of rules R15 to R21 and R123. -/
def Obligations.ResetStateMeetsTheInvariant : Prop := Inv State.reset

/-- Rule R131: power-on is UNBUILT; a rejected count leaves or puts the block there from any state; an admitted count gives
the same block whatever the block was before, BUILT, and transmits nothing. -/
def Obligations.ResetEventUnbuildsOrBuildsAfresh : Prop :=
  State.reset.mode = .unbuilt ∧
  (∀ (n : BitVec 13) (s : State), n.toNat = 0 ∨ 5461 < n.toNat →
    ∃ t, exec (.construct n) s = .next t ∧ t.mode = .unbuilt ∧ t.events = s.events) ∧
  (∀ (n : BitVec 13) (s s' : State), 1 ≤ n.toNat → n.toNat ≤ 5461 →
    ∃ t t', exec (.construct n) s = .next t ∧ exec (.construct n) s' = .next t' ∧
      t.toBlock = t'.toBlock ∧ t.nchain = n.toNat ∧ t.mode = .built ∧ t.init = false ∧ t.events = s.events)

/-- Rule R24, the table of reset values, for an admitted count; `CFG` takes the parameter's value whatever that is, and the
default with the parameter of this hardware. Nothing outside the block is set. -/
def Obligations.ConstructLeavesTheResetTable : Prop :=
  ∀ (n : BitVec 13) (s : State), 1 ≤ n.toNat → n.toNat ≤ 5461 →
    (∀ c, (constructWith c n s).cfg = c) ∧
    ∃ t, exec (.construct n) s = .next t ∧
      t.valid = true ∧ t.nchain = n.toNat ∧ t.maxch.toNat = 12 * n.toNat - 1 ∧ t.cfg = 0x96DFFFFF#32 ∧
      t.init = false ∧ (∀ i, i < 12 * n.toNat → t.memRead i = some 0#16) ∧
      (∀ i, 12 * n.toNat ≤ i → t.memRead i = none) ∧ t.busy = false ∧ t.pos = 0 ∧
      t.events = s.events ∧ t.port = s.port ∧ t.grain = s.grain ∧ t.replies = s.replies ++ [.driver]

/-- Rules R65 and R112: a count of 0 or above 5461 gives `ConfigError`, writes `VALID` alone and emits nothing. -/
def Obligations.ConstructRejectsAnInvalidCount : Prop :=
  ∀ (n : BitVec 13) (s : State), n.toNat = 0 ∨ 5461 < n.toNat →
    exec (.construct n) s = .next { s with valid := false, replies := s.replies ++ [.configError] }

/-- Rule R113 (a): with `VALID = 0` each of the four commands answers `(0, ST_CONFIG)` and changes nothing else. -/
def Obligations.UnbuiltBlockRefusesEveryCommand : Prop :=
  ∀ (i : Instr) (s : State), i.isCommand = true → s.valid = false →
    exec i s = .next { s with replies := s.replies ++ [.response ⟨false, .config⟩] }

/-- Rules R67 to R69: BEGIN on a built, uninitialised block emits the one `TConfig` event with the record `TCFG`, sets `INIT`
and changes nothing else; on an unbuilt or initialised block it is refused and changes nothing. The record has the most
significant bit first and the clock of rule R68; its mode is a free value, of which nothing is said (assumption 6). -/
def Obligations.BeginConfiguresTheTransportOnce : Prop :=
  encode .begin = .cmd51 0x0000000000000#51 ∧
  (Config.tcfg.bitOrder = .msbFirst ∧ Config.tcfg.clkBaseHz = 60000000 ∧ Config.tcfg.clkDiv = 64 ∧
    Config.tcfg.clkBaseHz = 937500 * Config.tcfg.clkDiv ∧ Config.tcfg.mode = Config.tmode) ∧
  (∀ s : State, s.valid = true → s.init = false →
    exec .begin s = .next { s with
      init := true
      replies := s.replies ++ [.response ⟨false, .ok⟩]
      events := s.events ++ [.tConfig Config.tcfg] }) ∧
  (∀ s : State, s.valid = false ∨ s.init = true →
    exec .begin s = .next { s with replies := s.replies ++ [.response ⟨false, .config⟩] })

/-- Rule R70: BEGIN transmits nothing, and BEGIN and a setter give the same block and the same events in either order. -/
def Obligations.BeginCommutesWithSetters : Prop :=
  ∀ (i : Instr) (s : State), i.isSetter = true → s.valid = true → s.init = false →
    ∃ t u, execAll [i, .begin] s = .next t ∧ execAll [.begin, i] s = .next u ∧
      t.toBlock = u.toBlock ∧ t.events = s.events ++ [.tConfig Config.tcfg] ∧
      u.events = s.events ++ [.tConfig Config.tcfg]

/-! ### The setters -/

/-- Rules R80 to R82: the encoding of SETPWM and its four outcomes, in the order of the checks, each with the whole next
state. -/
def Obligations.SetpwmComparesAndWrites : Prop :=
  ∀ (chan : Chan) (val : Duty) (s : State),
    (∃ w, encode (.setpwm chan val) = .cmd51 w ∧ w.toNat = 2 * 2 ^ 48 + chan.toNat * 2 ^ 32 + val.toNat) ∧
    (s.valid = false →
      exec (.setpwm chan val) s = .next { s with replies := s.replies ++ [.response ⟨false, .config⟩] }) ∧
    (s.valid = true → s.maxch.toNat < chan.toNat →
      exec (.setpwm chan val) s = .next { s with replies := s.replies ++ [.response ⟨false, .range⟩] }) ∧
    (s.valid = true → chan.toNat ≤ s.maxch.toNat → s.memRead chan.toNat = some val →
      exec (.setpwm chan val) s = .next { s with replies := s.replies ++ [.response ⟨false, .unchanged⟩] }) ∧
    (s.valid = true → chan.toNat ≤ s.maxch.toNat → s.memRead chan.toNat ≠ some val →
      exec (.setpwm chan val) s = .next { s with
        ch := s.ch.write chan.toNat val
        replies := s.replies ++ [.response ⟨true, .ok⟩] } ∧
      (s.ch.wf → (s.memWrite chan.toNat val).memRead chan.toNat = some val))

/-- Rule R84: a setter always answers, and changes no slot but the one it names, no other item of the block, no event; and no
command changes a slot it does not name, BEGIN and FLUSH naming none. -/
def Obligations.SettersChangeOnlyTheirSlot : Prop :=
  (∀ (i : Instr) (c : Nat) (s : State), i.isSetter = true → i.channel = some c → s.ch.wf →
    ∃ t, exec i s = .next t ∧ (∀ j, j ≠ c → t.memRead j = s.memRead j) ∧
      t.toBlock = { s.toBlock with ch := t.ch } ∧ t.events = s.events ∧ t.port = s.port ∧ t.grain = s.grain) ∧
  (∀ (i : Instr) (s t : State), i.isCommand = true → s.ch.wf → exec i s = .next t →
    ∀ j, i.channel ≠ some j → t.memRead j = s.memRead j)

/-- Rule R76: the encoding of SETPCT; refused on an unbuilt block; a NaN is refused; any other percent is scaled to a 16-bit
duty cycle and handed to SETPWM; and where that value is new to a slot in range, the slot holds it afterwards. -/
def Obligations.SetpctScalesThenSets : Prop :=
  ∀ (chan : Chan) (arg : BitVec 32) (s : State),
    (∃ w, encode (.setpct chan arg) = .cmd51 w ∧ w.toNat = 1 * 2 ^ 48 + chan.toNat * 2 ^ 32 + arg.toNat) ∧
    (s.valid = false →
      exec (.setpct chan arg) s = .next { s with replies := s.replies ++ [.response ⟨false, .config⟩] }) ∧
    (s.valid = true → decodePercent arg = .nan →
      exec (.setpct chan arg) s = .next { s with replies := s.replies ++ [.response ⟨false, .operand⟩] }) ∧
    (s.valid = true → decodePercent arg ≠ .nan →
      ∃ d t, scale (decodePercent arg) = some d ∧ d ≤ 65535 ∧
        exec (.setpct chan arg) s = .next t ∧ exec (.setpwm chan (BitVec.ofNat 16 d)) s = .next t ∧
        (s.ch.wf → chan.toNat ≤ s.maxch.toNat →
          ∃ v, t.memRead chan.toNat = some v ∧ v.toNat = d))

/-- Rule R77: a NaN pattern is refused on a built block whatever the channel is. -/
def Obligations.NanPercentIsRefused : Prop :=
  ∀ (chan : Chan) (arg : BitVec 32) (s : State), s.valid = true →
    arg.extractLsb' 23 8 = 255#8 → arg.extractLsb' 0 23 ≠ 0#23 →
    exec (.setpct chan arg) s = .next { s with replies := s.replies ++ [.response ⟨false, .operand⟩] }

/-- Rule R53, the binary32 decoding of the percent operand, in exact rationals. -/
def Obligations.PercentDecodesAsBinary32 : Prop :=
  ∀ arg : BitVec 32,
    let s : ℕ := arg.toNat / 2 ^ 31
    let e : ℕ := arg.toNat / 2 ^ 23 % 256
    let m : ℕ := arg.toNat % 2 ^ 23
    (e = 255 → m ≠ 0 → decodePercent arg = .nan) ∧
    (e = 255 → m = 0 → s = 0 → decodePercent arg = .posInf) ∧
    (e = 255 → m = 0 → s = 1 → decodePercent arg = .negInf) ∧
    (e = 0 → (decodePercent arg).toRat = some ((-1 : ℚ) ^ s * (m : ℚ) * (2 : ℚ) ^ (-149 : ℤ))) ∧
    (0 < e → e < 255 →
      (decodePercent arg).toRat = some ((-1 : ℚ) ^ s * (2 ^ 23 + (m : ℚ)) * (2 : ℚ) ^ ((e : ℤ) - 150)))

/-- Rule R78: `SCALE` clamps at 0 and at 100, infinities included, and between them is the floor of the exact product with
655351/1000; the result always fits 16 bits. -/
def Obligations.ScaleIsTheTruncatedProduct : Prop :=
  scale .negInf = some 0 ∧ scale .posInf = some 65535 ∧
  ∀ (k : ℤ) (p : ℚ), (Percent.finite k).toRat = some p →
    (p ≤ 0 → scale (.finite k) = some 0) ∧
    (100 ≤ p → scale (.finite k) = some 65535) ∧
    (0 < p → p < 100 →
      ∃ d : ℕ, scale (.finite k) = some d ∧ (d : ℤ) = ⌊p * 655351 / 1000⌋ ∧ d ≤ 65535)

/-- Rule R79, properties P1 to P4: 100.0 gives 65535 and 0.0 gives 0, every percent but NaN gives a 16-bit value, and a
larger percent never gives a smaller one. -/
def Obligations.ScaleEndPointsRangeAndOrder : Prop :=
  scale (decodePercent 0x42C80000#32) = some 65535 ∧
  scale (decodePercent 0x00000000#32) = some 0 ∧
  (∀ p, p ≠ Percent.nan → ∃ d, scale p = some d ∧ d ≤ 65535) ∧
  (∀ p q d e, Percent.le p q → scale p = some d → scale q = some e → d ≤ e)

/-! ### The wire encoder and FLUSH -/

/-- Rules R93 and R95: the encoding of FLUSH; performed, it emits one critical section around the bytes of its pseudocode,
`28 x NCHAIN + 2` events in all, answers `(0, ST_OK)` and changes nothing else; refused, it emits nothing. The reads of a
performed flush are in the channel space, which the last hypothesis says (rule R21 (c) gives it). -/
def Obligations.FlushTransmitsTheWholeChain : Prop :=
  encode .flush = .cmd51 0x3000000000000#51 ∧
  (∀ s : State, s.valid = false ∨ s.init = false →
    exec .flush s = .next { s with replies := s.replies ++ [.response ⟨false, .config⟩] }) ∧
  (∀ s : State, s.valid = true → s.init = true → s.maxch.toNat + 1 = 12 * s.nchain →
    ∃ es : List Event,
      es = [.critEnter] ++
        ((List.range s.nchain).flatMap fun k =>
          [.tx (s.cfg.extractLsb' 24 8), .tx (s.cfg.extractLsb' 16 8), .tx (s.cfg.extractLsb' 8 8),
            .tx (s.cfg.extractLsb' 0 8)] ++
          ([11, 10, 9, 8, 7, 6, 5, 4, 3, 2, 1, 0].flatMap fun j =>
            [.tx ((s.ch.read (12 * k + j)).extractLsb' 8 8), .tx ((s.ch.read (12 * k + j)).extractLsb' 0 8)])) ++
        [.critExit] ∧
      es.length = 28 * s.nchain + 2 ∧
      (∀ k j, k < s.nchain → j < 12 → s.memRead (12 * k + j) = some (s.ch.read (12 * k + j))) ∧
      exec .flush s = .next { s with
        events := s.events ++ es
        replies := s.replies ++ [.response ⟨false, .ok⟩] })

/-- Rules R46 and R49, with rows 8 to 25 as rule R47 fills them in: the table of a frame's 28 bytes, the place of each local channel in it, and the bytes of the stream by
number. -/
def Obligations.StreamIsItsFrameBytes : Prop :=
  ∀ (cfg : BitVec 32) (m : Memory),
    (∀ k, let h := fun j => (m.read (12 * k + j)).extractLsb' 8 8
      let l := fun j => (m.read (12 * k + j)).extractLsb' 0 8
      (List.range 28).map (frameByte cfg m k) =
        [cfg.extractLsb' 24 8, cfg.extractLsb' 16 8, cfg.extractLsb' 8 8, cfg.extractLsb' 0 8,
          h 11, l 11, h 10, l 10, h 9, l 9, h 8, l 8, h 7, l 7, h 6, l 6,
          h 5, l 5, h 4, l 4, h 3, l 3, h 2, l 2, h 1, l 1, h 0, l 0]) ∧
    (∀ k j, j < 12 →
      frameByte cfg m k (4 + 2 * (11 - j)) = (m.read (12 * k + j)).extractLsb' 8 8 ∧
      frameByte cfg m k (5 + 2 * (11 - j)) = (m.read (12 * k + j)).extractLsb' 0 8) ∧
    (∀ n, (stream cfg m n).length = 28 * n ∧
      ∀ q, q < 28 * n → (stream cfg m n)[q]? = some (frameByte cfg m (q / 28) (q % 28)))

/-- Rule R96: bytes `28k` to `28k + 3` of the stream are the configuration word, whatever the buffer holds. -/
def Obligations.HeaderOpensEveryFrame : Prop :=
  (∀ (cfg : BitVec 32) (m : Memory) (n k : Nat), k < n →
    ((stream cfg m n).drop (28 * k)).take 4 =
      [cfg.extractLsb' 24 8, cfg.extractLsb' 16 8, cfg.extractLsb' 8 8, cfg.extractLsb' 0 8]) ∧
  (∀ (m : Memory) (n k : Nat), k < n →
    ((stream 0x96DFFFFF#32 m n).drop (28 * k)).take 4 = [0x96#8, 0xDF#8, 0xFF#8, 0xFF#8])

/-- Rule R99 with the layout of rule R48: `224 x NCHAIN` bits, bit `t` being bit `7 - (t mod 8)` of byte `t div 8`; frame `k`
holds at `224k` the configuration word and then local channel 11 down to 0, each most significant bit first. -/
def Obligations.SerialBitsAreMostSignificantFirst : Prop :=
  ∀ (cfg : BitVec 32) (m : Memory) (n : Nat),
    (serialBits (stream cfg m n)).length = 224 * n ∧
    (∀ t, t < 224 * n →
      (serialBits (stream cfg m n))[t]? =
        ((stream cfg m n)[t / 8]?).map fun b => b.getLsbD (7 - t % 8)) ∧
    (∀ k t, k < n → t < 32 → (serialBits (stream cfg m n))[224 * k + t]? = some (cfg.getLsbD (31 - t))) ∧
    (∀ k j b, k < n → j < 12 → b < 16 →
      (serialBits (stream cfg m n))[224 * k + 32 + 16 * (11 - j) + b]? =
        some ((m.read (12 * k + j)).getLsbD (15 - b)))

/-- Rule R48: the bits a frame of this hardware puts on the line are the bits of its 224-bit word, the most significant first
in time. -/
def Obligations.WireWordIsTheSerialFrame : Prop :=
  ∀ v : List Duty, (Instr.writeFrame v).wellFormed = true →
    encode (.writeFrame v) = .wire224 (wireWord v) ∧
    serialBits (frameOf Config.cfgWord v) = (List.range 224).map fun t => (wireWord v).getLsbD (223 - t)

/-- WRITE_FRAME completes where its frame is due: a flush in progress at the first byte of the IC whose channels it holds. The
28 bytes go out, `POS` moves past them, and after the last frame the flush ends. That a frame of a flush is a step of its own
is the model's choice (assumption 3). -/
def Obligations.WriteFrameEmitsTheFrameThatIsDue : Prop :=
  ∀ (v : List Duty) (k : Nat) (s : State), s.valid = true → s.busy = true → s.pos = 28 * k → k < s.nchain →
    s.maxch.toNat + 1 = 12 * s.nchain → v = (List.range 12).map (fun j => s.ch.read (12 * k + j)) →
    (k + 1 < s.nchain →
      exec (.writeFrame v) s = .next { s with
        pos := 28 * (k + 1)
        events := s.events ++ ((List.range 28).map (frameByte s.cfg s.ch k)).map .tx }) ∧
    (k + 1 = s.nchain →
      exec (.writeFrame v) s = .next { s with
        busy := false
        pos := 0
        events := s.events ++ ((List.range 28).map (frameByte s.cfg s.ch k)).map .tx ++ [.critExit]
        replies := s.replies ++ [.response ⟨false, .ok⟩] })

/-- Rule R52: a frame is not something the block accepts. No word of the port decodes to one, and WRITE_FRAME of a frame that is
not the one a flush in progress emits next is refused by name. The refusal is the model's own form (assumption 3). -/
def Obligations.FrameIsOutputOnly : Prop :=
  (∀ (p : PortWord) (v : List Duty), decode p.code ≠ .ok (.writeFrame v)) ∧
  (∀ (v : List Duty) (s : State),
    ¬ (s.busy = true ∧ s.pos % 28 = 0 ∧
        v = (List.range 12).map fun j => s.ch.read (12 * (s.pos / 28) + j)) →
      exec (.writeFrame v) s = .refused .frameNotDue)

/-- Rules R19 and R31: where the reads of FLUSH or of a due frame would leave the channel space, or a frame would be due at no
byte of the stream, the machine stops by name. No state that meets the invariant is such a state; that these states stop, and the
names of the stops, are the model's choice (assumption 10). -/
def Obligations.ReadsOutsideTheChannelSpaceStop : Prop :=
  (∀ s : State, s.valid = true → s.init = true → s.maxch.toNat + 1 < 12 * s.nchain →
    exec .flush s = .fault .unmappedSlot) ∧
  (∀ (s : State) (k : Nat), s.busy = true → s.pos = 28 * k → k < s.nchain →
    (s.valid = false ∨ s.maxch.toNat + 1 < 12 * s.nchain) →
      exec (.writeFrame ((List.range 12).map fun j => s.ch.read (12 * k + j))) s = .fault .unmappedSlot) ∧
  (∀ (s : State) (k : Nat), s.busy = true → s.pos = 28 * k → s.nchain ≤ k →
    exec (.writeFrame ((List.range 12).map fun j => s.ch.read (12 * k + j))) s = .fault .sequencerRange)

/-- Rule R101 (and what rule R39 draws from it): a performed flush and a later one, with only commands between them none of
which answered that it wrote a slot (rule R54), emit identical event lists. -/
def Obligations.FlushRepeatsWhileNoSlotIsWritten : Prop :=
  ∀ (is : List Instr) (s t t' u : State) (rs : List Reply), (∀ i ∈ is, i.isCommand = true) →
    s.valid = true → s.init = true → exec .flush s = .next t → execAll is t = .next t' → t'.replies = t.replies ++ rs →
    (∀ st, Reply.response ⟨true, st⟩ ∉ rs) → exec .flush t' = .next u →
    ∃ es, t.events = s.events ++ es ∧ u.events = t'.events ++ es

/-- Rule R102: a change to slot `12k + j` changes no byte of the stream but the two of that channel, which become the two bytes
of the new value; the stream keeps its length. -/
def Obligations.OneSlotChangesTwoBytes : Prop :=
  ∀ (cfg : BitVec 32) (m : Memory) (n k j : Nat) (v : Duty), m.wf → k < n → j < 12 →
    let m' := m.write (12 * k + j) v
    let q := 28 * k + 4 + 2 * (11 - j)
    (stream cfg m' n)[q]? = some (v.extractLsb' 8 8) ∧
    (stream cfg m' n)[q + 1]? = some (v.extractLsb' 0 8) ∧
    (∀ r, r ≠ q → r ≠ q + 1 → (stream cfg m' n)[r]? = (stream cfg m n)[r]?) ∧
    (stream cfg m' n).length = (stream cfg m n).length

/-- Rule R38 (a), from construction to the wire: after CONSTRUCT, any list of SETPWM commands, BEGIN and FLUSH, the flush sends
for every channel the value of the last SETPWM that named it, or 0 if there was none. -/
def Obligations.FlushSendsTheLastValuesSet : Prop :=
  ∀ (n : BitVec 13) (ws : List (Chan × Duty)) (s : State), 1 ≤ n.toNat → n.toNat ≤ 5461 →
    ∃ u f es, execAll (.construct n :: (ws.map fun w => .setpwm w.1 w.2) ++ [.begin]) s = .next u ∧
      exec .flush u = .next f ∧ f.events = u.events ++ es ∧ (txBytes es).length = 28 * n.toNat ∧
      ∀ k j, k < n.toNat → j < 12 →
        (txBytes es)[28 * k + 4 + 2 * (11 - j)]? = some ((lastSet 0#16 (12 * k + j) ws).extractLsb' 8 8) ∧
        (txBytes es)[28 * k + 5 + 2 * (11 - j)]? = some ((lastSet 0#16 (12 * k + j) ws).extractLsb' 0 8)

/-! ### Responses and errors -/

/-- Rule R111: each command returns one response; one with a status other than `ST_OK` has `ret = 0`, and the command has left
every item of the block and every event as they were. -/
def Obligations.RefusedCommandLeavesNoTrace : Prop :=
  ∀ (i : Instr) (s t : State), i.isCommand = true → exec i s = .next t →
    ∃ r, t.replies = s.replies ++ [.response r] ∧ t.port = s.port ∧
      (r.status ≠ .ok → r.ret = false ∧ t.toBlock = s.toBlock ∧ t.events = s.events)

/-- Rule R54: `ret` is 1 exactly when the command is a setter that wrote a slot, and then the status is `ST_OK`; the 4-bit word
is `ret` above the status code, and the six codes are 0 to 5. -/
def Obligations.ReturnBitMeansASlotWasWritten : Prop :=
  (∀ (i : Instr) (s t : State) (r : Response), i.isCommand = true → s.ch.wf → exec i s = .next t →
    t.replies = s.replies ++ [.response r] →
    (r.ret = true ↔ i.isSetter = true ∧ ∃ j, t.memRead j ≠ s.memRead j) ∧ (r.ret = true → r.status = .ok)) ∧
  (∀ r : Response, r.rsp4.toNat = 8 * r.ret.toNat + r.status.code.toNat) ∧
  [Status.ok, .unchanged, .range, .config, .illegal, .operand].map Status.code = [0#3, 1#3, 2#3, 3#3, 4#3, 5#3] ∧
  (∀ st : Status, st.code ≠ 6#3 ∧ st.code ≠ 7#3)

/-! ### Encodings -/

/-- Rule R55, by the opcode map of rule R52: a word that decodes selects the row of its operation, a word is illegal exactly
when it selects no row, and no word selects two rows. -/
def Obligations.DecodingFollowsTheOpcodeMap : Prop :=
  ∀ w : BitVec 51,
    (∀ i, decodeCmd w = .ok i → ∃ r ∈ opcodeMap, r.selects w = true ∧ r.mnemonic = i.mnemonic) ∧
    ((∃ e, decodeCmd w = .error e) ↔ ∀ r ∈ opcodeMap, r.selects w = false) ∧
    (∀ r ∈ opcodeMap, ∀ r' ∈ opcodeMap, r.selects w = true → r'.selects w = true → r = r')

/-- Rule R56: which command words are illegal, that no other is, and that an illegal word changes no item of the block, emits no
event and answers `(0, ST_ILLEGAL)`, in every mode. -/
def Obligations.IllegalWordsAreReportedAndIgnored : Prop :=
  ∀ w : BitVec 51,
    let op : ℕ := w.toNat / 2 ^ 48
    let bad := 4 ≤ op ∨ ((op = 0 ∨ op = 3) ∧ w.toNat % 2 ^ 48 ≠ 0) ∨ (op = 2 ∧ w.toNat / 2 ^ 16 % 2 ^ 16 ≠ 0)
    (¬ bad → ∃ i, decodeCmd w = .ok i) ∧
    (bad → ∀ (s : State) (rest : List PortWord), s.busy = false → s.port = .command w :: rest →
      step s = .next { s with port := rest, replies := s.replies ++ [.response ⟨false, .illegal⟩] })

/-- Decoding the word of any well-formed operation gives the operation back, every operand at every value. -/
def Obligations.DecodeUndoesEncode : Prop :=
  ∀ i : Instr, i.wellFormed = true → decode (encode i) = .ok i

/-- Each word has one meaning: a word that decodes is the encoding of a well-formed operation, the one it decodes to. -/
def Obligations.EncodeUndoesDecode : Prop :=
  ∀ (c : CodeWord) (i : Instr), decode c = .ok i → encode i = c ∧ i.wellFormed = true

/-- The words of rule R62 (BEGIN, FLUSH and its two examples), the all-ones SETPCT word of test vector V6, those of the setters
in S2 and S3, and the reset word of the largest count of V1 decode to the operations they stand for. -/
def Obligations.SpecWordsDecodeAsNamed : Prop :=
  decode (.cmd51 0x0000000000000#51) = .ok .begin ∧
  decode (.cmd51 0x3000000000000#51) = .ok .flush ∧
  decode (.cmd51 0x2000B0000FFFF#51) = .ok (.setpwm 11#16 65535#16) ∧
  decode (.cmd51 0x1000B42C80000#51) = .ok (.setpct 11#16 0x42C80000#32) ∧
  decode (.cmd51 0x1FFFFFFFFFFFF#51) = .ok (.setpct 65535#16 0xFFFFFFFF#32) ∧
  decode (.cmd51 0x2000500001234#51) = .ok (.setpwm 5#16 0x1234#16) ∧
  decode (.cmd51 0x2000C00000001#51) = .ok (.setpwm 12#16 0x0001#16) ∧
  decode (.cmd51 0x1000242C80000#51) = .ok (.setpct 2#16 0x42C80000#32) ∧
  decode (.cmd51 0x1000200000000#51) = .ok (.setpct 2#16 0x00000000#32) ∧
  decode (.rst13 5461#13) = .ok (.construct 5461#13)

/-! ### The step -/

/-- Rule R7: outside a flush a step takes the next word of the port and is exec of the operation it decodes to (on a machine whose
steps are frames or bytes a FLUSH is begun instead, rule R97); with nothing presented it keeps the state (rule R126). In a flush
in progress it gives the byte at `POS` to the transport and ends the flush after the last (rule R97), but on a machine whose steps
are frames, at a frame boundary, it is exec of the WRITE_FRAME of the IC whose turn it is. The port and the grain of the steps
are the model's choice (assumptions 3, 4 and 17). -/
def Obligations.StepRunsTheDecodedOperation : Prop :=
  (∀ (s : State) (p : PortWord) (rest : List PortWord) (i : Instr), s.busy = false → s.port = p :: rest →
    decode p.code = .ok i → (i = .flush → s.grain = .flush) → step s = exec i { s with port := rest }) ∧
  (∀ (s : State) (p : PortWord) (rest : List PortWord), s.busy = false → s.port = p :: rest →
    decode p.code = .ok .flush → s.grain ≠ .flush → s.valid = true → s.init = true →
    step s = .next { s with port := rest, busy := true, pos := 0, events := s.events ++ [.critEnter] }) ∧
  (∀ (s : State) (p : PortWord) (rest : List PortWord), s.busy = false → s.port = p :: rest →
    decode p.code = .ok .flush → (s.valid = false ∨ s.init = false) →
    step s = .next { s with port := rest, replies := s.replies ++ [.response ⟨false, .config⟩] }) ∧
  (∀ s : State, s.busy = false → s.port = [] → step s = .next s) ∧
  (∀ (s : State) (k : Nat), s.busy = true → s.grain = .frame → s.pos = 28 * k →
    step s = exec (.writeFrame ((List.range 12).map fun j => s.ch.read (12 * k + j))) s) ∧
  (∀ s : State, s.busy = true → s.grain ≠ .frame ∨ s.pos % 28 ≠ 0 → s.valid = true →
    s.maxch.toNat + 1 = 12 * s.nchain →
    (s.pos + 1 < 28 * s.nchain →
      step s = .next { s with
        pos := s.pos + 1
        events := s.events ++ [.tx (frameByte s.cfg s.ch (s.pos / 28) (s.pos % 28))] }) ∧
    (s.pos + 1 = 28 * s.nchain →
      step s = .next { s with
        busy := false
        pos := 0
        events := s.events ++ [.tx (frameByte s.cfg s.ch (s.pos / 28) (s.pos % 28)), .critExit]
        replies := s.replies ++ [.response ⟨false, .ok⟩] }))

/-- Rule R136: while a flush is in progress no word of the port is taken, and a step leaves every item but `BUSY` and `POS` as
it was; it emits only bytes and, at the end, the release of the critical section. -/
def Obligations.BusyBlockHoldsThePort : Prop :=
  ∀ s t : State, s.busy = true → step s = .next t →
    t.port = s.port ∧ t.grain = s.grain ∧ t.toBlock = { s.toBlock with busy := t.busy, pos := t.pos } ∧
    ∃ es, t.events = s.events ++ es ∧ ∀ e ∈ es, (∃ b, e = .tx b) ∨ (e = .critExit ∧ t.busy = false)

/-- The invariant of rules R15 to R17, R19, R21, R94 and R123 is kept by every step. -/
def Obligations.StepKeepsTheInvariant : Prop :=
  ∀ s t : State, Inv s → step s = .next t → Inv t

/-- Rules R31 and R98: from a state that meets the invariant every step answers a next state: no read leaves the channel space,
and nothing is refused. -/
def Obligations.LegalRunsAreSafe : Prop :=
  ∀ s : State, Inv s → ∀ n, SafeFor n s

/-- Rule R97: the per-byte sequencer starts only at `BUSY = 0`; started where a flush may be performed it gives the transport byte
`q` at `POS = q` for `q = 0` to `28N - 1`, and after the last the state is the one the atomic FLUSH of rule R93 leaves. That a
start at `BUSY = 1`, which no step makes, keeps the state is the model's reading of "held" (assumption 17). -/
def Obligations.ByteSequencerRefinesFlush : Prop :=
  (∀ s : State, s.busy = true → flushStart s = .next s) ∧
  ∀ s : State, s.valid = true → s.init = true → s.busy = false → s.pos = 0 → 1 ≤ s.nchain →
    s.maxch.toNat + 1 = 12 * s.nchain →
    ∃ u, flushStart s = .next u ∧
      (∀ q, q < 28 * s.nchain →
        ∃ w, seqBytes q u = .next w ∧ w.busy = true ∧ w.pos = q ∧
          w.events = s.events ++ [.critEnter] ++ ((stream s.cfg s.ch s.nchain).take q).map .tx) ∧
      ∃ t, seqBytes (28 * s.nchain) u = .next t ∧ exec .flush s = .next t

/-- Rule R97, by the machine's own steps: on a machine whose steps are bytes the word of a FLUSH is taken by one step, `POS` then
goes through `0, 1, ..., 28N - 1`, one byte a step, with the rest of the port held, and after `28N + 1` steps the state is the
one the atomic FLUSH of rule R93 leaves. The grain of the steps is the model's field (assumption 17). -/
def Obligations.ByteStepsRefineFlush : Prop :=
  ∀ (s : State) (rest : List PortWord), s.valid = true → s.init = true → s.busy = false → s.pos = 0 → 1 ≤ s.nchain →
    s.maxch.toNat + 1 = 12 * s.nchain → s.grain = .byte → s.port = .command 0x3000000000000#51 :: rest →
    (∀ q, q < 28 * s.nchain →
      ∃ w, Host.Core.run core (q + 1) s = .next w ∧ w.busy = true ∧ w.pos = q ∧ w.port = rest ∧
        w.events = s.events ++ [.critEnter] ++ ((stream s.cfg s.ch s.nchain).take q).map .tx) ∧
    ∃ t, Host.Core.run core (28 * s.nchain + 1) s = .next t ∧ exec .flush { s with port := rest } = .next t

/-- On a machine whose steps are frames the word of a FLUSH is taken by one step, and `NCHAIN` more, one WRITE_FRAME each, leave
the state of the atomic FLUSH. That a frame is a step of its own is the model's choice (assumptions 3 and 17). -/
def Obligations.FrameStepsRefineFlush : Prop :=
  ∀ (s : State) (rest : List PortWord), s.valid = true → s.init = true → s.busy = false → s.pos = 0 → 1 ≤ s.nchain →
    s.maxch.toNat + 1 = 12 * s.nchain → s.grain = .frame → s.port = .command 0x3000000000000#51 :: rest →
    (∀ k, k < s.nchain →
      ∃ w, Host.Core.run core (k + 1) s = .next w ∧ w.busy = true ∧ w.pos = 28 * k ∧ w.port = rest ∧
        w.events = s.events ++ [.critEnter] ++ ((stream s.cfg s.ch k).map .tx)) ∧
    ∃ t, Host.Core.run core (s.nchain + 1) s = .next t ∧ exec .flush { s with port := rest } = .next t

/-- A frame is its 28 bytes: where its frame is due, WRITE_FRAME leaves the state that 28 byte steps of rule R97 leave. That the
28 may be taken as one step is the model's choice (assumption 3), which this statement justifies. -/
def Obligations.FrameIsItsTwentyEightBytes : Prop :=
  ∀ (s : State) (k : Nat), s.valid = true → s.busy = true → s.pos = 28 * k → k < s.nchain →
    s.maxch.toNat + 1 = 12 * s.nchain →
    ∃ t, exec (.writeFrame (icSlots s.ch k)) s = .next t ∧ seqBytes 28 s = .next t

/-- Rule R98: a flush in progress ends, within `28 x NMAX` steps and with `(0, ST_OK)`, after exactly the bytes of its stream from
`POS` on. -/
def Obligations.FlushInProgressEnds : Prop :=
  ∀ s : State, Inv s → s.busy = true →
    ∃ k, k ≤ 28 * 5461 ∧ ∃ t, Host.Core.run core k s = .next t ∧ t.busy = false ∧
      t.replies = s.replies ++ [.response ⟨false, .ok⟩] ∧
      txBytes t.events = txBytes s.events ++ (stream s.cfg s.ch s.nchain).drop s.pos

/-! ### Whole-machine rules -/

/-- Rule R131: what an unbuilt block's other items hold can never be told: two machines that differ there alone stay alike, step
by step, in what they answer, emit and have still to take. It covers the values the model gives those items at power-on
(assumption 1), on which nothing rests. -/
def Obligations.UnbuiltItemsAreUnobservable : Prop :=
  ∀ s s' t : State, Alike s s' → step s = .next t → ∃ t', step s' = .next t' ∧ Alike t t'

/-- Rule R120: the mode changes only by a CONSTRUCT, or by BEGIN from BUILT to READY. -/
def Obligations.OnlyResetAndBeginChangeTheMode : Prop :=
  ∀ (i : Instr) (s t : State), exec i s = .next t → t.mode ≠ s.mode →
    (∃ n, i = .construct n) ∨ (i = .begin ∧ s.mode = .built ∧ t.mode = .ready)

/-- Rules R13 to R18 and R130: only CONSTRUCT writes `VALID`, `NCHAIN`, `MAXCH` and `CFG` or clears `INIT`, and beside it only a
setter changes the buffer. -/
def Obligations.OnlyResetWritesControlRegisters : Prop :=
  ∀ (i : Instr) (s t : State), (∀ n, i ≠ .construct n) → exec i s = .next t →
    t.valid = s.valid ∧ t.nchain = s.nchain ∧ t.maxch = s.maxch ∧ t.cfg = s.cfg ∧
    (s.init = true → t.init = true) ∧ (i.isSetter = false → t.ch = s.ch)

/-- Rules R30, R75 and R85: every operation only adds to the events, and only FLUSH and the frames of a flush in progress add
anything but a `TConfig`. -/
def Obligations.OnlyAFlushTransmits : Prop :=
  ∀ (i : Instr) (s t : State), exec i s = .next t →
    ∃ es, t.events = s.events ++ es ∧
      (i = .flush ∨ (∃ v, i = .writeFrame v ∧ s.busy = true) ∨ (i = .begin ∧ es = [.tConfig Config.tcfg]) ∨ es = [])

/-- A channel space has one canonical form: two canonical memories with the same reads are the same data. -/
def Obligations.EqualReadsMeanEqualMemories : Prop :=
  ∀ m m' : Memory, m.wf → m'.wf → (∀ i, m.read i = m'.read i) → m = m'

/-- Rules R53 and R60: a decimal literal whose value a finite binary32 pattern holds exactly has that pattern, the sign of a zero
included, whatever digits it is written with; the nearest value of a fraction equal to a pattern's magnitude is that magnitude; and
the other three literals have the patterns of rule R79's table (that of `nan` is the model's choice among the NaNs,
assumption 9). -/
def Obligations.ExactLiteralsKeepTheirPattern : Prop :=
  (∀ arg : BitVec 32, f32Exp arg ≠ 255#8 →
    f32Nearest (f32Units arg) (2 ^ 149) = arg.toNat % 2 ^ 31 ∧
    ∀ (neg : Bool) (digits places : Nat), neg = f32Sign arg → digits * 2 ^ 149 = f32Units arg * 10 ^ places →
      bits32 (.decimal neg digits places) = arg) ∧
  bits32 .inf = 0x7F800000#32 ∧ bits32 .negInf = 0xFF800000#32 ∧ bits32 .nan = 0x7FC00000#32
end

