-- ==== Sys2Proof/Laws/Encoding.lean ====
section
/-! SUPPORT. The fields of a command word as numbers (rules R51 and R53), and words by their fields. -/

namespace Sys2Proof

theorem cmdWord_toNat (op : BitVec 3) (c : Chan) (a : BitVec 32) :
    (cmdWord op c a).toNat = op.toNat * 2 ^ 48 + c.toNat * 2 ^ 32 + a.toNat := by
  have := c.isLt
  have := a.isLt
  simp only [cmdWord, BitVec.toNat_append]
  rw [← Nat.shiftLeft_add_eq_or_of_lt (by omega), ← Nat.shiftLeft_add_eq_or_of_lt (by omega)]
  simp only [Nat.shiftLeft_eq]
  omega

theorem cmdOp_toNat (w : BitVec 51) : (cmdOp w).toNat = w.toNat / 2 ^ 48 := by
  have := w.isLt
  simp only [cmdOp, BitVec.extractLsb'_toNat, Nat.shiftRight_eq_div_pow]
  omega

theorem cmdChan_toNat (w : BitVec 51) : (cmdChan w).toNat = w.toNat / 2 ^ 32 % 2 ^ 16 := by
  simp only [cmdChan, BitVec.extractLsb'_toNat, Nat.shiftRight_eq_div_pow]

theorem cmdArg_toNat (w : BitVec 51) : (cmdArg w).toNat = w.toNat % 2 ^ 32 := by
  simp [cmdArg, BitVec.extractLsb'_toNat]

theorem cmdRest_toNat (w : BitVec 51) : (cmdRest w).toNat = w.toNat % 2 ^ 48 := by
  simp [cmdRest, BitVec.extractLsb'_toNat]

theorem cmdArgHi_toNat (w : BitVec 51) : (cmdArgHi w).toNat = w.toNat / 2 ^ 16 % 2 ^ 16 := by
  simp only [cmdArgHi, BitVec.extractLsb'_toNat, Nat.shiftRight_eq_div_pow]

theorem cmdVal_toNat (w : BitVec 51) : (cmdVal w).toNat = w.toNat % 2 ^ 16 := by
  simp [cmdVal, BitVec.extractLsb'_toNat]

/-- A command word is made of its three fields (rule R51). -/
theorem cmdWord_fields (w : BitVec 51) : cmdWord (cmdOp w) (cmdChan w) (cmdArg w) = w := by
  apply BitVec.eq_of_toNat_eq
  rw [cmdWord_toNat, cmdOp_toNat, cmdChan_toNat, cmdArg_toNat]
  omega

theorem cmdOp_cmdWord (op : BitVec 3) (c : Chan) (a : BitVec 32) : cmdOp (cmdWord op c a) = op := by
  have := c.isLt
  have := a.isLt
  apply BitVec.eq_of_toNat_eq
  rw [cmdOp_toNat, cmdWord_toNat]
  omega

theorem cmdChan_cmdWord (op : BitVec 3) (c : Chan) (a : BitVec 32) : cmdChan (cmdWord op c a) = c := by
  have := c.isLt
  have := a.isLt
  apply BitVec.eq_of_toNat_eq
  rw [cmdChan_toNat, cmdWord_toNat]
  omega

theorem cmdArg_cmdWord (op : BitVec 3) (c : Chan) (a : BitVec 32) : cmdArg (cmdWord op c a) = a := by
  have := a.isLt
  apply BitVec.eq_of_toNat_eq
  rw [cmdArg_toNat, cmdWord_toNat]
  omega

theorem wireWord_nil : wireWord [] = Config.cfgWord.setWidth 224 := rfl

theorem wireWord_cons (d : Duty) (v : List Duty) :
    wireWord (d :: v) = (wireWord v <<< 16) ||| d.setWidth 224 := by
  simp [wireWord]

/-- The bits of a wire word (rule R48): 16 for each channel, channel 0 the least significant, under the header. -/
theorem wireWord_bit (v : List Duty) (i : Nat) (h : i < 224) :
    (wireWord v).getLsbD i =
      if i < 16 * v.length then (v.getD (i / 16) 0#16).getLsbD (i % 16)
      else Config.cfgWord.getLsbD (i - 16 * v.length) := by
  induction v generalizing i with
  | nil => simp [wireWord_nil, h]
  | cons d v ih =>
    rw [wireWord_cons, BitVec.getLsbD_or, BitVec.getLsbD_shiftLeft, BitVec.getLsbD_setWidth]
    by_cases h16 : i < 16
    · have h1 : i / 16 = 0 := by omega
      have h2 : i % 16 = i := by omega
      have h3 : i < 16 * (d :: v).length := by simp; omega
      rw [if_pos h3, h1, h2, List.getD_cons_zero]
      simp [h, h16]
    · rw [ih (i - 16) (by omega)]
      have h1 : i / 16 = (i - 16) / 16 + 1 := by omega
      have h2 : i % 16 = (i - 16) % 16 := by omega
      have h3 : d.getLsbD i = false := BitVec.getLsbD_of_ge d i (by omega)
      have h4 : (i - 16 < 16 * v.length) = (i < 16 * (d :: v).length) := by
        simp only [List.length_cons, eq_iff_iff]; omega
      have h5 : i - 16 - 16 * v.length = i - 16 * (d :: v).length := by
        simp only [List.length_cons]; omega
      rw [h1, h2, h3, List.getD_cons_succ]
      simp only [h4, h5, h, h16, decide_true, decide_false, Bool.not_false, Bool.true_and, Bool.and_false, Bool.or_false]

end Sys2Proof
end

