-- ==== Sys2Proof/Laws/Frame.lean ====
section
/-! SUPPORT. The wire encoder: lengths, and the bytes of a frame by number. -/

namespace Sys2Proof.Machine

@[simp] theorem bytes32_length (w : BitVec 32) : (bytes32 w).length = 4 := rfl

@[simp] theorem bytes16_length (v : Duty) : (bytes16 v).length = 2 := rfl

@[simp] theorem icSlots_length (m : Memory) (k : Nat) : (icSlots m k).length = 12 := by
  simp [icSlots, Config.nch]

@[simp] theorem serialByte_length (b : Byte) : (serialByte b).length = 8 := rfl

theorem frameOf_length (cfg : BitVec 32) (v : List Duty) : (frameOf cfg v).length = 4 + 2 * v.length := by
  have h : ∀ l : List Duty, (l.flatMap bytes16).length = 2 * l.length := by
    intro l
    induction l with
    | nil => rfl
    | cons x l ih => simp [ih]; omega
  simp [frameOf, h]

@[simp] theorem frame_length (cfg : BitVec 32) (m : Memory) (k : Nat) : (frame cfg m k).length = 28 := by
  simp [frame, frameOf_length]

theorem stream_succ (cfg : BitVec 32) (m : Memory) (n : Nat) :
    stream cfg m (n + 1) = stream cfg m n ++ frame cfg m n := by
  simp [stream, List.range_succ]

@[simp] theorem stream_length (cfg : BitVec 32) (m : Memory) (n : Nat) : (stream cfg m n).length = 28 * n := by
  induction n with
  | zero => rfl
  | succ n ih => rw [stream_succ, List.length_append, ih, frame_length]; omega

/-- A frame is its bytes by number (rule R47). -/
theorem frame_eq_map (cfg : BitVec 32) (m : Memory) (k : Nat) :
    frame cfg m k = (List.range 28).map (frameByte cfg m k) := rfl

/-- The serial bits of a list of bytes are eight for each. -/
theorem serialBits_length (bs : List Byte) : (serialBits bs).length = 8 * bs.length := by
  induction bs with
  | nil => rfl
  | cons b bs ih =>
    have : serialBits (b :: bs) = serialByte b ++ serialBits bs := by simp [serialBits]
    rw [this, List.length_append, ih, serialByte_length, List.length_cons]
    omega

/-- Only `Tx` events hand a byte to the transport. -/
@[simp] theorem txBytes_map_tx (bs : List Byte) : txBytes (bs.map .tx) = bs := by
  induction bs with
  | nil => rfl
  | cons b bs _ => simp [txBytes]

theorem txBytes_append (es fs : List Event) : txBytes (es ++ fs) = txBytes es ++ txBytes fs := by
  simp [txBytes]

theorem txBytes_flushEvents (s : State) : txBytes (flushEvents s) = stream s.cfg s.ch s.nchain := by
  have h : txBytes ((stream s.cfg s.ch s.nchain).map .tx ++ [.critExit]) = stream s.cfg s.ch s.nchain := by
    rw [txBytes_append, txBytes_map_tx]
    exact List.append_nil _
  exact h

end Sys2Proof.Machine
end

