-- ==== Sys2Proof/Laws/Memory.lean ====
section
/-! SUPPORT. The channel space: read after write, and the canonical form. -/

namespace Sys2Proof.Machine

@[simp] theorem Memory.read_nil (i : Nat) : Memory.read [] i = 0#16 := rfl

theorem Memory.read_cons (a : Nat) (d : Duty) (m : Memory) (i : Nat) :
    Memory.read ((a, d) :: m) i = if a = i then d else Memory.read m i := rfl

/-- An index below every listed one is unlisted. -/
theorem Memory.read_eq_zero_of_lt {m : Memory} {i : Nat} (h : ∀ p ∈ m, i < p.1) : Memory.read m i = 0#16 := by
  induction m with
  | nil => rfl
  | cons p m ih =>
    have hp := h p (by simp)
    rw [Memory.read_cons, if_neg (by omega)]
    exact ih fun q hq => h q (by simp [hq])

/-- Read after write, on a memory whose indices rise strictly. -/
theorem Memory.read_write {m : Memory} (h : m.Pairwise (fun p q => p.1 < q.1)) (i : Nat) (v : Duty) (j : Nat) :
    (m.write i v).read j = if j = i then v else m.read j := by
  induction m with
  | nil =>
    by_cases hv : v = 0#16
    · simp [Memory.write, hv]
    · simp [Memory.write, hv, Memory.read_cons, eq_comm (a := i)]
  | cons p m ih =>
    obtain ⟨a, d⟩ := p
    have hm := (List.pairwise_cons.1 h).2
    have ha : ∀ q ∈ m, a < q.1 := (List.pairwise_cons.1 h).1
    by_cases h1 : i < a
    · have hz : Memory.read ((a, d) :: m) i = 0#16 :=
        Memory.read_eq_zero_of_lt fun q hq => by
          rcases List.mem_cons.1 hq with rfl | hq
          · exact h1
          · exact lt_trans h1 (ha q hq)
      by_cases hv : v = 0#16
      · by_cases hj : j = i
        · simp [Memory.write, h1, hv, hj, hz]
        · simp [Memory.write, h1, hv, hj]
      · simp only [Memory.write, h1, hv, if_true, if_false]
        rw [Memory.read_cons]
        by_cases hj : j = i
        · simp [hj]
        · simp [hj, Ne.symm hj]
    · by_cases h2 : i = a
      · subst h2
        have hz : Memory.read m i = 0#16 := Memory.read_eq_zero_of_lt ha
        by_cases hv : v = 0#16
        · by_cases hj : j = i
          · simp [Memory.write, hv, hj, hz]
          · simp [Memory.write, hv, hj, Memory.read_cons, Ne.symm hj]
        · by_cases hj : j = i
          · simp [Memory.write, hv, hj, Memory.read_cons]
          · simp [Memory.write, hv, hj, Memory.read_cons, Ne.symm hj]
      · simp only [Memory.write, h1, h2, if_false, Memory.read_cons, ih hm]
        by_cases hja : a = j
        · have hji : ¬ j = i := by omega
          simp [hja, hji]
        · simp [hja]

/-- The entries of a memory after a write are old entries or the one written. -/
theorem Memory.mem_write {m : Memory} {i : Nat} {v : Duty} {p : Nat × Duty} (h : p ∈ m.write i v) :
    p ∈ m ∨ (p = (i, v) ∧ v ≠ 0#16) := by
  induction m with
  | nil =>
    by_cases hv : v = 0#16
    · simp [Memory.write, hv] at h
    · exact .inr ⟨by simpa [Memory.write, hv] using h, hv⟩
  | cons q m ih =>
    obtain ⟨a, d⟩ := q
    simp only [Memory.write] at h
    split at h
    · split at h
      · exact .inl h
      · rcases List.mem_cons.1 h with h | h
        · exact .inr ⟨h, ‹_›⟩
        · exact .inl h
    · split at h
      · split at h
        · exact .inl (by simp [h])
        · rcases List.mem_cons.1 h with h | h
          · exact .inr ⟨h, ‹_›⟩
          · exact .inl (by simp [h])
      · rcases List.mem_cons.1 h with h | h
        · exact .inl (by simp [h])
        · rcases ih h with h | h
          · exact .inl (by simp [h])
          · exact .inr h

/-- A write keeps the canonical form. -/
theorem Memory.wf_write {m : Memory} (h : m.wf) (i : Nat) (v : Duty) : (m.write i v).wf := by
  refine ⟨?_, fun p hp => ?_⟩
  · have hs := h.1
    clear h
    induction m with
    | nil => by_cases hv : v = 0#16 <;> simp [Memory.write, hv]
    | cons q m ih =>
      obtain ⟨a, d⟩ := q
      have hm := (List.pairwise_cons.1 hs).2
      have ha : ∀ q ∈ m, a < q.1 := (List.pairwise_cons.1 hs).1
      simp only [Memory.write]
      split
      · split
        · exact hs
        · refine List.pairwise_cons.2 ⟨fun q hq => ?_, hs⟩
          rcases List.mem_cons.1 hq with rfl | hq
          · assumption
          · exact lt_trans ‹_› (ha q hq)
      · split
        · split
          · exact hm
          · exact List.pairwise_cons.2 ⟨fun q hq => by simpa [‹i = a›] using ha q hq, hm⟩
        · refine List.pairwise_cons.2 ⟨fun q hq => ?_, ih hm⟩
          rcases Memory.mem_write hq with hq | ⟨rfl, -⟩
          · exact ha q hq
          · show a < i
            omega
  · rcases Memory.mem_write hp with hp | ⟨rfl, hv⟩
    · exact h.2 p hp
    · exact hv

/-- A slot after a write to the channel space of a state (rule R31). -/
theorem State.memRead_memWrite {s : State} (h : s.ch.wf) (i : Nat) (v : Duty) (j : Nat) :
    (s.memWrite i v).memRead j = if j = i then (if s.mapped j then some v else none) else s.memRead j := by
  have hm : (s.memWrite i v).mapped j = s.mapped j := rfl
  have hr : (s.memWrite i v).ch.read j = if j = i then v else s.ch.read j := Memory.read_write h.1 i v j
  rw [State.memRead, hm, hr]
  by_cases hj : j = i <;> simp [State.memRead, hj]

theorem State.memRead_of_mapped {s : State} {i : Nat} (hv : s.valid = true) (h : i ≤ s.maxch.toNat) :
    s.memRead i = some (s.ch.read i) := by
  simp [State.memRead, State.mapped, hv, h]

/-- The empty memory, which is what reset and CONSTRUCT leave, is in the canonical form. -/
theorem Memory.wf_nil : Memory.wf [] := ⟨List.Pairwise.nil, by simp⟩

/-- The machine's memory at reset is in the canonical form. -/
theorem State.reset_ch_wf : State.reset.ch.wf := Memory.wf_nil

end Sys2Proof.Machine
end

