-- ==== Sys2Proof/Laws/State.lean ====
section
/-! SUPPORT. What each update of the state leaves in each field. -/

namespace Sys2Proof.Machine

@[simp] theorem State.emit_valid (s : State) (es : List Event) : (s.emit es).valid = s.valid := rfl
@[simp] theorem State.emit_nchain (s : State) (es : List Event) : (s.emit es).nchain = s.nchain := rfl
@[simp] theorem State.emit_maxch (s : State) (es : List Event) : (s.emit es).maxch = s.maxch := rfl
@[simp] theorem State.emit_cfg (s : State) (es : List Event) : (s.emit es).cfg = s.cfg := rfl
@[simp] theorem State.emit_init (s : State) (es : List Event) : (s.emit es).init = s.init := rfl
@[simp] theorem State.emit_ch (s : State) (es : List Event) : (s.emit es).ch = s.ch := rfl
@[simp] theorem State.emit_busy (s : State) (es : List Event) : (s.emit es).busy = s.busy := rfl
@[simp] theorem State.emit_pos (s : State) (es : List Event) : (s.emit es).pos = s.pos := rfl
@[simp] theorem State.emit_port (s : State) (es : List Event) : (s.emit es).port = s.port := rfl
@[simp] theorem State.emit_grain (s : State) (es : List Event) : (s.emit es).grain = s.grain := rfl
@[simp] theorem State.emit_replies (s : State) (es : List Event) : (s.emit es).replies = s.replies := rfl
@[simp] theorem State.emit_events (s : State) (es : List Event) : (s.emit es).events = s.events ++ es := rfl
@[simp] theorem State.emit_toBlock (s : State) (es : List Event) : (s.emit es).toBlock = s.toBlock := rfl

@[simp] theorem State.reply_valid (s : State) (r : Reply) : (s.reply r).valid = s.valid := rfl
@[simp] theorem State.reply_nchain (s : State) (r : Reply) : (s.reply r).nchain = s.nchain := rfl
@[simp] theorem State.reply_maxch (s : State) (r : Reply) : (s.reply r).maxch = s.maxch := rfl
@[simp] theorem State.reply_cfg (s : State) (r : Reply) : (s.reply r).cfg = s.cfg := rfl
@[simp] theorem State.reply_init (s : State) (r : Reply) : (s.reply r).init = s.init := rfl
@[simp] theorem State.reply_ch (s : State) (r : Reply) : (s.reply r).ch = s.ch := rfl
@[simp] theorem State.reply_busy (s : State) (r : Reply) : (s.reply r).busy = s.busy := rfl
@[simp] theorem State.reply_pos (s : State) (r : Reply) : (s.reply r).pos = s.pos := rfl
@[simp] theorem State.reply_port (s : State) (r : Reply) : (s.reply r).port = s.port := rfl
@[simp] theorem State.reply_grain (s : State) (r : Reply) : (s.reply r).grain = s.grain := rfl
@[simp] theorem State.reply_replies (s : State) (r : Reply) : (s.reply r).replies = s.replies ++ [r] := rfl
@[simp] theorem State.reply_events (s : State) (r : Reply) : (s.reply r).events = s.events := rfl
@[simp] theorem State.reply_toBlock (s : State) (r : Reply) : (s.reply r).toBlock = s.toBlock := rfl

@[simp] theorem State.respond_valid (s : State) (ret : Bool) (st : Status) : (s.respond ret st).valid = s.valid := rfl
@[simp] theorem State.respond_nchain (s : State) (ret : Bool) (st : Status) : (s.respond ret st).nchain = s.nchain := rfl
@[simp] theorem State.respond_maxch (s : State) (ret : Bool) (st : Status) : (s.respond ret st).maxch = s.maxch := rfl
@[simp] theorem State.respond_cfg (s : State) (ret : Bool) (st : Status) : (s.respond ret st).cfg = s.cfg := rfl
@[simp] theorem State.respond_init (s : State) (ret : Bool) (st : Status) : (s.respond ret st).init = s.init := rfl
@[simp] theorem State.respond_ch (s : State) (ret : Bool) (st : Status) : (s.respond ret st).ch = s.ch := rfl
@[simp] theorem State.respond_busy (s : State) (ret : Bool) (st : Status) : (s.respond ret st).busy = s.busy := rfl
@[simp] theorem State.respond_pos (s : State) (ret : Bool) (st : Status) : (s.respond ret st).pos = s.pos := rfl
@[simp] theorem State.respond_port (s : State) (ret : Bool) (st : Status) : (s.respond ret st).port = s.port := rfl
@[simp] theorem State.respond_grain (s : State) (ret : Bool) (st : Status) : (s.respond ret st).grain = s.grain := rfl
@[simp] theorem State.respond_replies (s : State) (ret : Bool) (st : Status) : (s.respond ret st).replies = s.replies ++ [.response ⟨ret, st⟩] := rfl
@[simp] theorem State.respond_events (s : State) (ret : Bool) (st : Status) : (s.respond ret st).events = s.events := rfl
@[simp] theorem State.respond_toBlock (s : State) (ret : Bool) (st : Status) : (s.respond ret st).toBlock = s.toBlock := rfl

@[simp] theorem State.memWrite_valid (s : State) (i : Nat) (v : Duty) : (s.memWrite i v).valid = s.valid := rfl
@[simp] theorem State.memWrite_nchain (s : State) (i : Nat) (v : Duty) : (s.memWrite i v).nchain = s.nchain := rfl
@[simp] theorem State.memWrite_maxch (s : State) (i : Nat) (v : Duty) : (s.memWrite i v).maxch = s.maxch := rfl
@[simp] theorem State.memWrite_cfg (s : State) (i : Nat) (v : Duty) : (s.memWrite i v).cfg = s.cfg := rfl
@[simp] theorem State.memWrite_init (s : State) (i : Nat) (v : Duty) : (s.memWrite i v).init = s.init := rfl
@[simp] theorem State.memWrite_ch (s : State) (i : Nat) (v : Duty) : (s.memWrite i v).ch = s.ch.write i v := rfl
@[simp] theorem State.memWrite_busy (s : State) (i : Nat) (v : Duty) : (s.memWrite i v).busy = s.busy := rfl
@[simp] theorem State.memWrite_pos (s : State) (i : Nat) (v : Duty) : (s.memWrite i v).pos = s.pos := rfl
@[simp] theorem State.memWrite_port (s : State) (i : Nat) (v : Duty) : (s.memWrite i v).port = s.port := rfl
@[simp] theorem State.memWrite_grain (s : State) (i : Nat) (v : Duty) : (s.memWrite i v).grain = s.grain := rfl
@[simp] theorem State.memWrite_replies (s : State) (i : Nat) (v : Duty) : (s.memWrite i v).replies = s.replies := rfl
@[simp] theorem State.memWrite_events (s : State) (i : Nat) (v : Duty) : (s.memWrite i v).events = s.events := rfl
@[simp] theorem State.memWrite_toBlock (s : State) (i : Nat) (v : Duty) : (s.memWrite i v).toBlock = { s.toBlock with ch := s.ch.write i v } := rfl

@[simp] theorem flushFinish_valid (s : State) : (flushFinish s).valid = s.valid := rfl
@[simp] theorem flushFinish_nchain (s : State) : (flushFinish s).nchain = s.nchain := rfl
@[simp] theorem flushFinish_maxch (s : State) : (flushFinish s).maxch = s.maxch := rfl
@[simp] theorem flushFinish_cfg (s : State) : (flushFinish s).cfg = s.cfg := rfl
@[simp] theorem flushFinish_init (s : State) : (flushFinish s).init = s.init := rfl
@[simp] theorem flushFinish_ch (s : State) : (flushFinish s).ch = s.ch := rfl
@[simp] theorem flushFinish_busy (s : State) : (flushFinish s).busy = false := rfl
@[simp] theorem flushFinish_pos (s : State) : (flushFinish s).pos = 0 := rfl
@[simp] theorem flushFinish_port (s : State) : (flushFinish s).port = s.port := rfl
@[simp] theorem flushFinish_grain (s : State) : (flushFinish s).grain = s.grain := rfl
@[simp] theorem flushFinish_replies (s : State) : (flushFinish s).replies = s.replies ++ [.response ⟨false, .ok⟩] := rfl
@[simp] theorem flushFinish_events (s : State) : (flushFinish s).events = s.events ++ [.critExit] := rfl

@[simp] theorem State.offer_valid (s : State) (p : PortWord) : (s.offer p).valid = s.valid := rfl
@[simp] theorem State.offer_nchain (s : State) (p : PortWord) : (s.offer p).nchain = s.nchain := rfl
@[simp] theorem State.offer_maxch (s : State) (p : PortWord) : (s.offer p).maxch = s.maxch := rfl
@[simp] theorem State.offer_cfg (s : State) (p : PortWord) : (s.offer p).cfg = s.cfg := rfl
@[simp] theorem State.offer_init (s : State) (p : PortWord) : (s.offer p).init = s.init := rfl
@[simp] theorem State.offer_ch (s : State) (p : PortWord) : (s.offer p).ch = s.ch := rfl
@[simp] theorem State.offer_busy (s : State) (p : PortWord) : (s.offer p).busy = false := rfl
@[simp] theorem State.offer_pos (s : State) (p : PortWord) : (s.offer p).pos = 0 := rfl
@[simp] theorem State.offer_port (s : State) (p : PortWord) : (s.offer p).port = p :: s.port := rfl
@[simp] theorem State.offer_grain (s : State) (p : PortWord) : (s.offer p).grain = .flush := rfl
@[simp] theorem State.offer_replies (s : State) (p : PortWord) : (s.offer p).replies = s.replies := rfl
@[simp] theorem State.offer_events (s : State) (p : PortWord) : (s.offer p).events = s.events := rfl

@[simp] theorem State.emit_mapped (s : State) (es : List Event) (j : Nat) : (s.emit es).mapped j = s.mapped j := rfl
@[simp] theorem State.emit_memRead (s : State) (es : List Event) (j : Nat) : (s.emit es).memRead j = s.memRead j := rfl
@[simp] theorem State.emit_bufferMapped (s : State) (es : List Event) : (s.emit es).bufferMapped = s.bufferMapped := rfl
@[simp] theorem State.reply_mapped (s : State) (r : Reply) (j : Nat) : (s.reply r).mapped j = s.mapped j := rfl
@[simp] theorem State.reply_memRead (s : State) (r : Reply) (j : Nat) : (s.reply r).memRead j = s.memRead j := rfl
@[simp] theorem State.reply_bufferMapped (s : State) (r : Reply) : (s.reply r).bufferMapped = s.bufferMapped := rfl
@[simp] theorem State.respond_mapped (s : State) (ret : Bool) (st : Status) (j : Nat) : (s.respond ret st).mapped j = s.mapped j := rfl
@[simp] theorem State.respond_memRead (s : State) (ret : Bool) (st : Status) (j : Nat) : (s.respond ret st).memRead j = s.memRead j := rfl
@[simp] theorem State.respond_bufferMapped (s : State) (ret : Bool) (st : Status) : (s.respond ret st).bufferMapped = s.bufferMapped := rfl

/-- The channel space of a built block is `0..MAXCH` (rule R32). -/
theorem State.mapped_iff {s : State} {i : Nat} : s.mapped i = true ↔ s.valid = true ∧ i ≤ s.maxch.toNat := by
  simp only [State.mapped, Bool.and_eq_true, decide_eq_true_eq]

/-- When the slots of all ICs are mapped (rule R31). -/
theorem State.bufferMapped_iff {s : State} :
    s.bufferMapped = true ↔ s.valid = true ∧ 12 * s.nchain ≤ s.maxch.toNat + 1 := by
  simp only [State.bufferMapped, Bool.and_eq_true, decide_eq_true_eq]
  rfl

/-- The response in its 4-bit word, field by field (rule R54). -/
theorem Response.rsp4_fields (r : Response) :
    r.rsp4.getLsbD 3 = r.ret ∧ r.rsp4.extractLsb' 0 3 = r.status.code := by
  obtain ⟨ret, st⟩ := r
  cases ret <;> cases st <;> decide

end Sys2Proof.Machine
end

