-- ==== Sys2Proof/Laws/Exec.lean ====
section
/-! SUPPORT. What each operation and a step can answer, said once. -/

namespace Sys2Proof.Machine

theorem raise_eq (st : Status) (s : State) : raise st s = .next (s.respond false st) := rfl

/-- The three outcomes of the setters' shared core (rules R80 to R82). -/
theorem setpwmCore_range {chan : Chan} {val : Duty} {s : State} (h : s.maxch < chan) :
    setpwmCore chan val s = .next (s.respond false .range) := by
  simp [setpwmCore, setterStatus, h, raise]

theorem setpwmCore_unchanged {chan : Chan} {val : Duty} {s : State} (h : ¬ s.maxch < chan)
    (hv : s.ch.read chan.toNat = val) : setpwmCore chan val s = .next (s.respond false .unchanged) := by
  simp [setpwmCore, setterStatus, h, hv, raise]

theorem setpwmCore_changed {chan : Chan} {val : Duty} {s : State} (h : ¬ s.maxch < chan)
    (hv : s.ch.read chan.toNat ≠ val) :
    setpwmCore chan val s = .next ((s.memWrite chan.toNat val).respond true .ok) := by
  simp [setpwmCore, setterStatus, h, hv]

/-- The setters' core always answers, and this is all it can answer. -/
theorem setpwmCore_cases (chan : Chan) (val : Duty) (s : State) :
    (s.maxch < chan ∧ setpwmCore chan val s = .next (s.respond false .range)) ∨
    (chan ≤ s.maxch ∧ s.ch.read chan.toNat = val ∧
      setpwmCore chan val s = .next (s.respond false .unchanged)) ∨
    (chan ≤ s.maxch ∧ s.ch.read chan.toNat ≠ val ∧
      setpwmCore chan val s = .next ((s.memWrite chan.toNat val).respond true .ok)) := by
  by_cases h : s.maxch < chan
  · exact .inl ⟨h, setpwmCore_range h⟩
  · have hle : chan ≤ s.maxch := BitVec.not_lt.1 h
    by_cases hv : s.ch.read chan.toNat = val
    · exact .inr (.inl ⟨hle, hv, setpwmCore_unchanged h hv⟩)
    · exact .inr (.inr ⟨hle, hv, setpwmCore_changed h hv⟩)

theorem execSetpwm_unbuilt {chan : Chan} {val : Duty} {s : State} (h : s.valid = false) :
    execSetpwm chan val s = .next (s.respond false .config) := by
  simp [execSetpwm, h, raise]

theorem execSetpwm_built {chan : Chan} {val : Duty} {s : State} (h : s.valid = true) :
    execSetpwm chan val s = setpwmCore chan val s := by
  simp [execSetpwm, h]

theorem execSetpct_unbuilt {chan : Chan} {arg : BitVec 32} {s : State} (h : s.valid = false) :
    execSetpct chan arg s = .next (s.respond false .config) := by
  simp [execSetpct, setpctWith, h, raise]

theorem execSetpct_nan {chan : Chan} {arg : BitVec 32} {s : State} (h : s.valid = true)
    (hp : scale (decodePercent arg) = none) : execSetpct chan arg s = .next (s.respond false .operand) := by
  simp [execSetpct, setpctWith, h, hp, raise]

theorem execSetpct_scaled {chan : Chan} {arg : BitVec 32} {s : State} {d : Nat} (h : s.valid = true)
    (hp : scale (decodePercent arg) = some d) :
    execSetpct chan arg s = setpwmCore chan (BitVec.ofNat 16 d) s := by
  simp [execSetpct, setpctWith, h, hp]

/-- What either setter can answer: a refusal with its status, or one slot written. -/
def SetterAnswer (chan : Chan) (s t : State) : Prop :=
  (∃ st, st ≠ Status.ok ∧ t = s.respond false st) ∨
    (s.valid = true ∧ chan ≤ s.maxch ∧
      ∃ v, s.ch.read chan.toNat ≠ v ∧ t = (s.memWrite chan.toNat v).respond true .ok)

theorem setpwmCore_answer {chan : Chan} {val : Duty} {s : State} (h : s.valid = true) :
    ∃ t, setpwmCore chan val s = .next t ∧ SetterAnswer chan s t := by
  rcases setpwmCore_cases chan val s with ⟨-, he⟩ | ⟨-, -, he⟩ | ⟨hle, hv, he⟩
  · exact ⟨_, he, .inl ⟨_, by decide, rfl⟩⟩
  · exact ⟨_, he, .inl ⟨_, by decide, rfl⟩⟩
  · exact ⟨_, he, .inr ⟨h, hle, _, hv, rfl⟩⟩

theorem execSetpwm_answer (chan : Chan) (val : Duty) (s : State) :
    ∃ t, execSetpwm chan val s = .next t ∧ SetterAnswer chan s t := by
  cases h : s.valid
  · exact ⟨_, execSetpwm_unbuilt h, .inl ⟨_, by decide, rfl⟩⟩
  · rw [execSetpwm_built h]
    exact setpwmCore_answer h

theorem execSetpct_answer (chan : Chan) (arg : BitVec 32) (s : State) :
    ∃ t, execSetpct chan arg s = .next t ∧ SetterAnswer chan s t := by
  cases h : s.valid
  · exact ⟨_, execSetpct_unbuilt h, .inl ⟨_, by decide, rfl⟩⟩
  · cases hp : scale (decodePercent arg) with
    | none => exact ⟨_, execSetpct_nan h hp, .inl ⟨_, by decide, rfl⟩⟩
    | some d =>
      rw [execSetpct_scaled h hp]
      exact setpwmCore_answer h

/-- What BEGIN can answer (rules R67 and R69). -/
theorem execBegin_cases (s : State) :
    (execBegin s = .next (s.respond false .config) ∧ (s.valid = false ∨ s.init = true)) ∨
    (s.valid = true ∧ s.init = false ∧
      execBegin s = .next ({ s.emit [.tConfig Config.tcfg] with init := true }.respond false .ok)) := by
  cases hv : s.valid <;> cases hi : s.init <;> simp [execBegin, hv, hi, raise]

/-- What CONSTRUCT can answer (rule R65). -/
theorem execConstruct_cases (n : BitVec 13) (s : State) :
    ((n.toNat < 1 ∨ 5461 < n.toNat) ∧ execConstruct n s = .next ({ s with valid := false }.reply .configError)) ∨
    (1 ≤ n.toNat ∧ n.toNat ≤ 5461 ∧
      execConstruct n s = .next ({ s with
        toBlock := ⟨true, n.toNat, BitVec.ofNat 16 (12 * n.toNat - 1), Config.cfgWord, false, [], false, 0⟩ }.reply
          .driver)) := by
  by_cases h : n.toNat < 1 ∨ 5461 < n.toNat
  · exact .inl ⟨h, congrArg _ (if_pos h)⟩
  · exact .inr ⟨by omega, by omega, congrArg _ (if_neg h)⟩

/-- What FLUSH can answer (rules R93 and R95). -/
theorem execFlush_cases (s : State) :
    ((s.valid = false ∨ s.init = false) ∧ execFlush s = .next (s.respond false .config)) ∨
    (s.valid = true ∧ s.init = true ∧ s.bufferMapped = true ∧
      execFlush s = .next ((s.emit (flushEvents s)).respond false .ok)) ∨
    (s.valid = true ∧ s.init = true ∧ s.bufferMapped = false ∧ execFlush s = .fault .unmappedSlot) := by
  cases hv : s.valid <;> cases hi : s.init <;> cases hb : s.bufferMapped <;> simp [execFlush, hv, hi, hb, raise]

/-- What the start of a refined flush can answer (rule R97). -/
theorem flushStart_cases (s : State) :
    (s.busy = true ∧ flushStart s = .next s) ∨
    (s.busy = false ∧ (s.valid = false ∨ s.init = false) ∧ flushStart s = .next (s.respond false .config)) ∨
    (s.busy = false ∧ s.valid = true ∧ s.init = true ∧
      flushStart s = .next { s.emit [.critEnter] with busy := true, pos := 0 }) := by
  cases hb : s.busy <;> cases hv : s.valid <;> cases hi : s.init <;> simp [flushStart, hb, hv, hi, raise]

/-- The sequencer's answer where its position and its slots exist (rule R97). -/
theorem seqEmit_eq {bytes : List Byte} {s : State} (hp : s.pos < 28 * s.nchain) (hb : s.bufferMapped = true) :
    seqEmit bytes s = .next (seqAdvance bytes.length (s.emit (bytes.map .tx))) := by
  simp [seqEmit, Config.frameBytes, hb, Nat.not_le.2 hp]

theorem seqAdvance_finish {n : Nat} {s : State} (h : s.pos + n = 28 * s.nchain) : seqAdvance n s = flushFinish s := by
  simp [seqAdvance, Config.frameBytes, h]

theorem seqAdvance_on {n : Nat} {s : State} (h : s.pos + n ≠ 28 * s.nchain) :
    seqAdvance n s = { s with pos := s.pos + n } := by
  simp [seqAdvance, Config.frameBytes, h]

/-- All the sequencer can answer for a list of bytes (rules R19, R31 and R97). -/
theorem seqEmit_cases (bytes : List Byte) (s : State) :
    (28 * s.nchain ≤ s.pos ∧ seqEmit bytes s = .fault .sequencerRange) ∨
    (s.pos < 28 * s.nchain ∧ s.bufferMapped = false ∧ seqEmit bytes s = .fault .unmappedSlot) ∨
    (s.pos < 28 * s.nchain ∧ s.bufferMapped = true ∧ s.pos + bytes.length = 28 * s.nchain ∧
      seqEmit bytes s = .next (flushFinish (s.emit (bytes.map .tx)))) ∨
    (s.pos < 28 * s.nchain ∧ s.bufferMapped = true ∧ s.pos + bytes.length ≠ 28 * s.nchain ∧
      seqEmit bytes s = .next { s.emit (bytes.map .tx) with pos := s.pos + bytes.length }) := by
  by_cases hp : 28 * s.nchain ≤ s.pos
  · exact .inl ⟨hp, if_pos hp⟩
  · have hp' := Nat.not_le.1 hp
    cases hb : s.bufferMapped
    · exact .inr (.inl ⟨hp', rfl, by simp [seqEmit, Config.frameBytes, hp, hb]⟩)
    · rw [seqEmit_eq hp' hb]
      by_cases hn : s.pos + bytes.length = 28 * s.nchain
      · exact .inr (.inr (.inl ⟨hp', rfl, hn, congrArg _ (seqAdvance_finish hn)⟩))
      · exact .inr (.inr (.inr ⟨hp', rfl, hn, congrArg _ (seqAdvance_on hn)⟩))

/-- When a frame is due: a flush in progress is at its first byte, and its channels are the IC's. -/
theorem frameDue_iff {v : List Duty} {s : State} :
    frameDue v s = true ↔ s.busy = true ∧ s.pos % 28 = 0 ∧ v = icSlots s.ch (s.pos / 28) := by
  simp only [frameDue, Bool.and_eq_true, decide_eq_true_eq, and_assoc]
  rfl

/-- WRITE_FRAME is the sequencer's for a frame that is due, and refused for any other. -/
theorem execWriteFrame_cases (v : List Duty) (s : State) :
    (frameDue v s = true ∧ execWriteFrame v s = seqEmit (frameOf s.cfg v) s) ∨
    (frameDue v s = false ∧ execWriteFrame v s = .refused .frameNotDue) := by
  cases h : frameDue v s <;> simp [execWriteFrame, h]

/-- The slots of a state that meets the invariant are mapped (rule R31). -/
theorem Inv.bufferMapped {s : State} (h : Inv s) (hv : s.valid = true) : s.bufferMapped = true := by
  exact State.bufferMapped_iff.2 ⟨hv, (h.highest hv).ge⟩

/-- When a step of a flush in progress gives a whole frame. -/
theorem State.givesFrame_iff {s : State} :
    s.givesFrame = true ↔ s.busy = true ∧ s.grain = .frame ∧ s.pos % 28 = 0 := by
  simp only [State.givesFrame, Bool.and_eq_true, decide_eq_true_eq, and_assoc]
  rfl

/-- When an operation begins a refined flush. -/
theorem State.startsFlush_iff {s : State} {i : Instr} : s.startsFlush i = true ↔ i = .flush ∧ s.grain ≠ .flush := by
  simp [State.startsFlush]

/-- A busy step that gives a frame gives the one that is due. -/
theorem step_frame {s : State} (h : s.givesFrame = true) : step s = seqEmit (frame s.cfg s.ch (s.pos / 28)) s := by
  obtain ⟨hb, -, hp⟩ := State.givesFrame_iff.1 h
  simp [step, hb, h, hp, Config.frameBytes, exec, execWriteFrame, frameDue, frame]

/-- Any other busy step is one byte (rule R97). -/
theorem step_byte {s : State} (hb : s.busy = true) (h : s.givesFrame = false) : step s = seqByte s := by
  simp [step, hb, h]

/-- With nothing presented the block is idle (rule R126). -/
theorem step_idle {s : State} (hb : s.busy = false) (hp : s.port = []) : step s = .next s := by
  simp [step, hb, hp]

/-- A step takes the next word, and runs what it decodes to (rule R7), where that begins no refined flush. -/
theorem step_taken {s : State} {p : PortWord} {rest : List PortWord} {i : Instr} (hb : s.busy = false)
    (hp : s.port = p :: rest) (hd : decode p.code = .ok i) (hf : s.startsFlush i = false) :
    step s = exec i { s with port := rest } := by
  simp [step, hb, hp, hd, hf]

/-- A step takes the word of a FLUSH that goes by frames or bytes, and begins it (rule R97). -/
theorem step_start {s : State} {p : PortWord} {rest : List PortWord} (hb : s.busy = false)
    (hp : s.port = p :: rest) (hd : decode p.code = .ok .flush) (hg : s.grain ≠ .flush) :
    step s = flushStart { s with port := rest } := by
  simp [step, hb, hp, hd, State.startsFlush_iff.2 ⟨rfl, hg⟩]

/-- An illegal command word is reported and ignored (rule R56). -/
theorem step_illegal {s : State} {p : PortWord} {rest : List PortWord} {e : Illegal} (hb : s.busy = false)
    (hp : s.port = p :: rest) (hd : decode p.code = .error e) :
    step s = .next ({ s with port := rest }.respond false .illegal) := by
  simp [step, hb, hp, hd, raise]

/-- A word of the port never decodes to a wire frame (rule R52). -/
theorem decode_port_ne_writeFrame (p : PortWord) (v : List Duty) : decode p.code ≠ .ok (.writeFrame v) := by
  cases p with
  | reset n => simp [PortWord.code, decode]
  | command w =>
    simp only [PortWord.code, decode, decodeCmd]
    split_ifs <;> simp

/-- Everything a step can do: sequence a frame or a byte, idle, report an illegal word, begin a refined flush, or run an
operation other than WRITE_FRAME. -/
theorem step_cases (s : State) :
    (s.busy = true ∧ s.pos % 28 = 0 ∧ step s = seqEmit (frame s.cfg s.ch (s.pos / 28)) s) ∨
    (s.busy = true ∧ step s = seqByte s) ∨
    (s.busy = false ∧ s.port = [] ∧ step s = .next s) ∨
    (s.busy = false ∧ ∃ p rest e, s.port = p :: rest ∧ decode p.code = .error e ∧
      step s = .next ({ s with port := rest }.respond false .illegal)) ∨
    (s.busy = false ∧ s.grain ≠ .flush ∧ ∃ p rest, s.port = p :: rest ∧ decode p.code = .ok .flush ∧
      step s = flushStart { s with port := rest }) ∨
    (s.busy = false ∧ ∃ p rest i, s.port = p :: rest ∧ decode p.code = .ok i ∧ s.startsFlush i = false ∧
      (∀ v, i ≠ .writeFrame v) ∧ step s = exec i { s with port := rest }) := by
  cases hb : s.busy
  · cases hp : s.port with
    | nil => exact .inr (.inr (.inl ⟨rfl, rfl, step_idle hb hp⟩))
    | cons p rest =>
      cases hd : decode p.code with
      | error e => exact .inr (.inr (.inr (.inl ⟨rfl, p, rest, e, rfl, hd, step_illegal hb hp hd⟩)))
      | ok i =>
        cases hf : s.startsFlush i
        · refine .inr (.inr (.inr (.inr (.inr ⟨rfl, p, rest, i, rfl, hd, hf, fun v hv => ?_, step_taken hb hp hd hf⟩))))
          exact decode_port_ne_writeFrame p v (hv ▸ hd)
        · obtain ⟨rfl, hg⟩ := State.startsFlush_iff.1 hf
          exact .inr (.inr (.inr (.inr (.inl ⟨rfl, hg, p, rest, rfl, hd, step_start hb hp hd hg⟩))))
  · cases h : s.givesFrame
    · exact .inr (.inl ⟨rfl, step_byte hb h⟩)
    · exact .inl ⟨rfl, (State.givesFrame_iff.1 h).2.2, step_frame h⟩

/-- No step of a run. -/
theorem run_zero (s : State) : Host.Core.run core 0 s = .next s := rfl

/-- A run's first step, where it answers a next state. -/
theorem run_next {k : Nat} {s t : State} (h : step s = .next t) :
    Host.Core.run core (k + 1) s = Host.Core.run core k t := by
  simp only [Host.Core.run]
  rw [show core.step s = .next t from h]

end Sys2Proof.Machine
end

