-- ==== Sys2Proof/Laws/Operands.lean ====
section
/-! SUPPORT. SCALE: where it has a value, and its range (rules R77 to R79). -/

namespace Sys2Proof.Machine

theorem scale_nan : scale .nan = none := rfl

theorem scale_of_nonpos {k : Int} (h : k ≤ 0) : scale (.finite k) = some 0 := by simp [scale, h]

theorem scale_of_ge_hundred {k : Int} (h : 100 * unitsPerOne ≤ k) : scale (.finite k) = some 65535 := by
  have : ¬ k ≤ 0 := by
    have : (0 : Int) < 100 * unitsPerOne := by decide
    omega
  simp [scale, h, this]

theorem scale_between {k : Int} (h0 : 0 < k) (h1 : k < 100 * unitsPerOne) :
    scale (.finite k) = some (k * 655351 / (1000 * unitsPerOne)).toNat := by
  simp [scale, Int.not_le.2 h0, Int.not_le.2 h1]

/-- SCALE has no value for a NaN alone (rule R77). -/
theorem scale_eq_none {p : Percent} : scale p = none ↔ p = .nan := by
  cases p with
  | finite k => simp only [scale]; split_ifs <;> simp
  | nan => simp [scale]
  | negInf => simp [scale]
  | posInf => simp [scale]

/-- The range of SCALE is a 16-bit value (rule R78), so its conversion to a slot's width drops nothing (rule R87). -/
theorem scale_le {p : Percent} {d : Nat} (h : scale p = some d) : d ≤ 65535 := by
  cases p with
  | nan => simp [scale] at h
  | negInf => simp [scale] at h; omega
  | posInf => simp [scale] at h; omega
  | finite k =>
    simp only [scale] at h
    split_ifs at h with h0 h1
    · simp at h; omega
    · simp at h; omega
    · have hu : unitsPerOne = 713623846352979940529142984724747568191373312 := by decide
      simp only [Option.some.injEq] at h
      rw [hu] at h h1
      omega

end Sys2Proof.Machine
end

