-- ==== Sys2Proof/Laws/PerInstr.lean ====
section
/-! SUPPORT. Statements about every operation, made per constructor. -/

namespace Sys2Proof.Laws

namespace RowFormat

/-- The encoding of a well-formed operation is in the format of its row of the opcode table, and a command word carries the
`op` of its row of rule R52's map. -/
def Statement (i : Instr) : Prop :=
  i.wellFormed = true →
    match encode i with
    | .rst13 _ => i.mnemonic = "CONSTRUCT"
    | .cmd51 w => ∃ r ∈ opcodeMap, r.mnemonic = i.mnemonic ∧ cmdOp w = cmdOp r.pattern
    | .wire224 _ => i.mnemonic = "WRITE_FRAME"

theorem construct (n : BitVec 13) : Statement (.construct n) := fun _ => rfl

theorem begin : Statement .begin := fun _ => ⟨opcodeMap[0], by decide, rfl, by decide⟩

theorem setpct (chan : Chan) (arg : BitVec 32) : Statement (.setpct chan arg) :=
  fun _ => ⟨opcodeMap[1], by decide, rfl, (cmdOp_cmdWord _ _ _).trans (by decide)⟩

theorem setpwm (chan : Chan) (val : Duty) : Statement (.setpwm chan val) :=
  fun _ => ⟨opcodeMap[2], by decide, rfl, (cmdOp_cmdWord _ _ _).trans (by decide)⟩

theorem flush : Statement .flush := fun _ => ⟨opcodeMap[3], by decide, rfl, by decide⟩

theorem writeFrame (v : List Duty) : Statement (.writeFrame v) := fun _ => rfl

end RowFormat

end Sys2Proof.Laws
end

