-- ==== Sys2Proof/Tests/Slice0.lean ====
section
/-! SUPPORT. Small tests with results taken from the spec's vectors (spec/95_test_vectors.md) and tables, the smoke test of
WellFormed, and for every statement that has hypotheses a state and operands that meet them. -/

namespace Sys2Proof.Tests

open Sys2Proof Sys2Proof.Machine

/-! ### Small states -/

/-- The block after CONSTRUCT `n` from power-on. -/
def built (n : BitVec 13) : State := constructWith Config.cfgWord n State.reset

/-- The block after CONSTRUCT `n` and BEGIN, the replies left out. -/
def ready (n : BitVec 13) : State :=
  { built n with init := true, replies := [], events := [.tConfig Config.tcfg] }

/-- A flush of `n` ICs in progress at byte `q`, the bytes sent so far left out. -/
def sending (n : BitVec 13) (q : Nat) : State :=
  { ready n with busy := true, pos := q, events := [.tConfig Config.tcfg, .critEnter] }

/-- The next state of an outcome. -/
def nextOf (o : Host.Outcome State Fault Refusal) : Option State :=
  match o with
  | .next t => some t
  | .fault _ => none
  | .refused _ => none

/-- The last answer of the next state. -/
def answer (o : Host.Outcome State Fault Refusal) : Option Reply := (nextOf o).bind fun t => t.replies.getLast?

/-- The bytes of the next state's events. -/
def sent (o : Host.Outcome State Fault Refusal) : Option (List Byte) := (nextOf o).map fun t => txBytes t.events

/-- The slot `i` of the next state. -/
def slot (i : Nat) (o : Host.Outcome State Fault Refusal) : Option Duty := (nextOf o).bind fun t => t.memRead i

/-! ### WellFormed smoke: a frame of eleven or of thirteen channels is refused -/

theorem test_wellFormed_refuses_eleven_channels : (Instr.writeFrame (List.replicate 11 0#16)).wellFormed = false := by decide
theorem test_wellFormed_refuses_thirteen_channels : (Instr.writeFrame (List.replicate 13 0#16)).wellFormed = false := by decide
theorem test_wellFormed_takes_twelve_channels : (Instr.writeFrame (List.replicate 12 0#16)).wellFormed = true := by decide

/-! ### Decoding: words written out from rules R51, R52, R48 and R63, and the table of vector V6 -/

theorem test_decode_construct : decode (.rst13 0b1010101010101#13) = .ok (.construct 5461#13) := by decide
theorem test_decode_begin :
    decode (.cmd51 (0b000#3 ++ 0b0000000000000000#16 ++ 0b00000000000000000000000000000000#32)) = .ok .begin := by decide
theorem test_decode_setpct :
    decode (.cmd51 (0b001#3 ++ 0b0000000000001011#16 ++ 0b01000010110010000000000000000000#32)) =
      .ok (.setpct 11#16 0x42C80000#32) := by decide
theorem test_decode_setpwm :
    decode (.cmd51 (0b010#3 ++ 0b1000000000001011#16 ++ 0b0000000000000000#16 ++ 0b1111111111111110#16)) =
      .ok (.setpwm 0x800B#16 0xFFFE#16) := by decide
theorem test_decode_flush :
    decode (.cmd51 (0b011#3 ++ 0b0000000000000000#16 ++ 0b00000000000000000000000000000000#32)) = .ok .flush := by decide

/-- Rules R17 and R48: the fields of the header, then local channel 11 first; the channels are those of program P5. -/
theorem test_decode_writeFrame :
    decode (.wire224 (0b100101#6 ++ 0b1#1 ++ 0b0#1 ++ 0b1#1 ++ 0b1#1 ++ 0b0#1 ++ 0b1111111#7 ++ 0b1111111#7 ++ 0b1111111#7 ++
      0xB00B#16 ++ 0xA00A#16 ++ 0x9009#16 ++ 0x8008#16 ++ 0x7007#16 ++ 0x6006#16 ++
      0x5005#16 ++ 0x4004#16 ++ 0x3003#16 ++ 0x2002#16 ++ 0x1001#16 ++ 0x0000#16)) =
    .ok (.writeFrame [0x0000#16, 0x1001#16, 0x2002#16, 0x3003#16, 0x4004#16, 0x5005#16,
      0x6006#16, 0x7007#16, 0x8008#16, 0x9009#16, 0xA00A#16, 0xB00B#16]) := by decide

/-- Vector V6: the illegal words, each by its reason. -/
theorem test_decode_illegal :
    decodeCmd 0x0000000000001#51 = .error .beginReserved ∧ decodeCmd 0x2000B0001FFFF#51 = .error .setpwmReserved ∧
    decodeCmd 0x3000100000000#51 = .error .flushReserved ∧ decodeCmd 0x4000000000000#51 = .error (.reservedOp 4#3) ∧
    decodeCmd 0x5000000000000#51 = .error (.reservedOp 5#3) ∧ decodeCmd 0x6000000000000#51 = .error (.reservedOp 6#3) ∧
    decodeCmd 0x7000000000000#51 = .error (.reservedOp 7#3) := by decide

/-- The header of the readings that conflict C1 rejects is no header of this hardware. -/
theorem test_decode_wire_header : decodeWire (0x52DFFFFF#32 ++ 0#192) = .error .wireHeader := by decide

/-- Rule R62's two examples, the other way. -/
theorem test_encode_examples :
    encode (.setpwm 11#16 65535#16) = .cmd51 0x2000B0000FFFF#51 ∧
    encode (.setpct 11#16 0x42C80000#32) = .cmd51 0x1000B42C80000#51 := by decide

/-- Rule R61 and row 9 of vector V2. -/
theorem test_setlc : setlc 1 3 0x8000#16 = some (.setpwm 15#16 0x8000#16) ∧ setlc 0 12 1#16 = none ∧
    setlc 5461 3 1#16 = some (.setpwm 65535#16 1#16) ∧ setlc 5461 4 1#16 = none := by decide

theorem test_decodeTableWord :
    decodeTableWord 16 5461 = some (.construct 5461#13) ∧ decodeTableWord 56 0x2000B0000FFFF = some (.setpwm 11#16 65535#16) ∧
    decodeTableWord 56 0x3000000000001 = none ∧ decodeTableWord 16 8192 = none := by decide

/-! ### Constants -/

/-- Vector V5. -/
theorem test_cfgWord : Config.cfgWord = 0x96DFFFFF#32 ∧ bytes32 Config.cfgWord = [0x96#8, 0xDF#8, 0xFF#8, 0xFF#8] := by decide

/-- Rule R142. -/
theorem test_transport_clock : Config.clkBaseHz / Config.clkDiv = 937500 ∧ Config.clkBaseHz % Config.clkDiv = 0 := by decide

/-! ### Operations -/

/-- Rows 3 and 4 of vector V1. -/
theorem test_construct_largest :
    (nextOf (exec (.construct 5461#13) State.reset)).map (fun t => (t.valid, t.nchain, t.maxch, t.memRead 65531, t.memRead 65532)) =
      some (true, 5461, 65531#16, some 0#16, none) := by decide
theorem test_construct_too_large :
    answer (exec (.construct 5462#13) State.reset) = some .configError ∧
    (nextOf (exec (.construct 0#13) (ready 1#13))).map (·.valid) = some false := by decide

/-- Rows 8 and 9 of vector V1. -/
theorem test_begin_built :
    (nextOf (exec .begin (built 1#13))).map (fun t => (t.init, t.replies)) =
      some (true, [.driver, .response ⟨false, .ok⟩]) := by decide
theorem test_begin_twice :
    exec .begin (ready 1#13) = .next { ready 1#13 with replies := [.response ⟨false, .config⟩] } := rfl

/-- Rows 5 to 8 of vector V2. -/
theorem test_setpwm_last_slot :
    slot 23 (exec (.setpwm 23#16 1#16) (built 2#13)) = some 1#16 ∧
    answer (exec (.setpwm 23#16 1#16) (built 2#13)) = some (.response ⟨true, .ok⟩) := by decide
theorem test_setpwm_out_of_range :
    answer (exec (.setpwm 24#16 1#16) (built 2#13)) = some (.response ⟨false, .range⟩) ∧
    answer (exec (.setpwm 65535#16 1#16) (built 2#13)) = some (.response ⟨false, .range⟩) ∧
    answer (exec (.setpwm 24#16 0#16) (built 2#13)) = some (.response ⟨false, .range⟩) ∧
    answer (exec (.setpwm 0#16 0#16) (built 2#13)) = some (.response ⟨false, .unchanged⟩) := by decide

/-- Rows 1, 3, 6, 7 and 14 of vector V3. -/
theorem test_setpct_scales :
    slot 3 (exec (.setpct 3#16 0x42480000#32) (built 1#13)) = some 0x7FFF#16 ∧
    slot 4 (exec (.setpct 4#16 0x43160000#32) (built 1#13)) = some 0xFFFF#16 := by decide
theorem test_setpct_operand_before_range :
    answer (exec (.setpct 99#16 0x7FC00000#32) (built 1#13)) = some (.response ⟨false, .operand⟩) ∧
    answer (exec (.setpct 99#16 0x41200000#32) (built 1#13)) = some (.response ⟨false, .range⟩) ∧
    answer (exec (.setpct 9#16 0x7FA00001#32) (built 1#13)) = some (.response ⟨false, .operand⟩) := by decide

/-- Rows 5 and 7 of vector V4. -/
theorem test_flush_bytes :
    sent (exec .flush { ready 1#13 with ch := [(6, 0x00FF#16)] }) =
      some ([0x96#8, 0xDF#8, 0xFF#8, 0xFF#8] ++ List.replicate 10 0#8 ++ [0x00#8, 0xFF#8] ++ List.replicate 12 0#8) := by decide
theorem test_flush_before_begin :
    exec .flush (built 1#13) =
      .next { built 1#13 with replies := [.driver, .response ⟨false, .config⟩] } := rfl

/-- The stream of program P5, as the frame of a flush in progress. -/
theorem test_writeFrame_descends :
    sent (exec (.writeFrame [0x0000#16, 0x1001#16, 0x2002#16, 0x3003#16, 0x4004#16, 0x5005#16,
        0x6006#16, 0x7007#16, 0x8008#16, 0x9009#16, 0xA00A#16, 0xB00B#16])
      { sending 1#13 0 with ch := [(1, 0x1001#16), (2, 0x2002#16), (3, 0x3003#16), (4, 0x4004#16), (5, 0x5005#16),
          (6, 0x6006#16), (7, 0x7007#16), (8, 0x8008#16), (9, 0x9009#16), (10, 0xA00A#16), (11, 0xB00B#16)] }) =
    some [0x96#8, 0xDF#8, 0xFF#8, 0xFF#8, 0xB0#8, 0x0B#8, 0xA0#8, 0x0A#8, 0x90#8, 0x09#8, 0x80#8, 0x08#8, 0x70#8, 0x07#8,
      0x60#8, 0x06#8, 0x50#8, 0x05#8, 0x40#8, 0x04#8, 0x30#8, 0x03#8, 0x20#8, 0x02#8, 0x10#8, 0x01#8, 0x00#8, 0x00#8] := by decide

/-- Rule R97 for row 3 of vector V4: at `POS = 26` the byte is `AB`; at `POS = 27` it is `CD` and the flush ends. -/
theorem test_sequencer_last_bytes :
    (nextOf (step { sending 1#13 26 with ch := [(0, 0xABCD#16)] })).map (fun t => (t.busy, t.pos, txBytes t.events)) =
      some (true, 27, [0xAB#8]) ∧
    (nextOf (step { sending 1#13 27 with ch := [(0, 0xABCD#16)] })).map (fun t => (t.busy, t.pos, txBytes t.events)) =
      some (false, 0, [0xCD#8]) := by decide

/-- Rule R97 by steps: a FLUSH begun on a machine whose steps are bytes; the next command is held. -/
theorem test_step_starts_flush :
    (nextOf (step { ready 1#13 with grain := .byte, port := [.command 0x3000000000000#51, .command 0x0000000000000#51] })).map
      (fun t => (t.busy, t.pos, t.port, t.replies.length)) =
    some (true, 0, [.command 0x0000000000000#51], 0) := by decide

/-- Rules R55 and R116: in UNBUILT an illegal word is illegal, not a configuration error. -/
theorem test_step_illegal_unbuilt :
    answer (step { State.reset with port := [.command 0x4000000000000#51] }) = some (.response ⟨false, .illegal⟩) ∧
    answer (step { State.reset with port := [.command 0x3000000000000#51] }) = some (.response ⟨false, .config⟩) := by decide

/-- The words the next step runs: a reset, a command, a frame. -/
theorem test_withFetchWord :
    answer (step (State.reset.withFetchWord 16 2)) = some .driver ∧
    answer (step (State.reset.withFetchWord 56 0x2000000000001)) = some (.response ⟨false, .config⟩) ∧
    (sent (step (State.reset.withFetchWord 224 (0x96DFFFFF * 2 ^ 192 + 0xABCD)))).map (fun bs => (bs.length, bs.drop 26)) =
      some (28, [0xAB#8, 0xCD#8]) := by decide

/-- Rule R54. -/
theorem test_rsp4 : Response.rsp4 ⟨true, .ok⟩ = 0b1000#4 ∧ Response.rsp4 ⟨false, .operand⟩ = 0b0101#4 := by decide

/-! ### The table of rule R79 -/

theorem test_scale_table_low :
    [0x00000000#32, 0x80000000#32, 0x3A83126F#32, 0x3AC800B4#32, 0x3AC800B5#32, 0x3DCCCCCD#32, 0x3F000000#32, 0x3F800000#32,
      0x41200000#32, 0x41480000#32, 0x41A00000#32, 0x41C80000#32, 0x42053333#32].map (fun a => scale (decodePercent a)) =
    [some 0, some 0, some 0, some 0, some 1, some 65, some 327, some 655,
      some 6553, some 8191, some 13107, some 16383, some 21823] := by decide

theorem test_scale_table_high :
    [0x42480000#32, 0x42853333#32, 0x42960000#32, 0x42C7FAE1#32, 0x42C7FF7D#32, 0x42C7FFFF#32, 0x42C80000#32, 0x42C80001#32,
      0x43160000#32, 0x7F800000#32, 0xC0A00000#32, 0xFF800000#32, 0x7FC00000#32].map (fun a => scale (decodePercent a)) =
    [some 32767, some 43646, some 49151, some 65528, some 65534, some 65535, some 65535, some 65535,
      some 65535, some 65535, some 0, some 0, none] := by decide

/-! ### Text -/

/-- Rule R60 and program P1. -/
theorem test_assemble :
    assemble ["CONSTRUCT 1", "SETPCT 0, 0   ; slot 0 holds 0", "", "SETPCT 11, 100", "BEGIN", "SETLC 1, 3, 0x8000", "FLUSH"] =
      some [.reset 1#13, .command 0x1000000000000#51, .command 0x1000B42C80000#51, .command 0x0000000000000#51,
        .command 0x2000F00008000#51, .command 0x3000000000000#51] := by decide

/-- The literals of rule R79's table. -/
theorem test_literals :
    [PctLiteral.decimal true 0 0, .decimal false 1 3, .decimal false 1 1, .decimal false 333 1, .decimal false 9999 2,
      .decimal false 99999 3, .decimal false 10000001 5, .decimal true 5 0].map bits32 =
    [0x80000000#32, 0x3A83126F#32, 0x3DCCCCCD#32, 0x42053333#32, 0x42C7FAE1#32, 0x42C7FF7D#32, 0x42C80001#32, 0xC0A00000#32] := by
  decide

/-! ### Witnesses: states and operands that meet the hypotheses of the statements -/

/-- States that meet the invariant: initialised and idle, at a frame boundary of a flush, and inside a frame. -/
theorem inv_ready : Inv (ready 2#13) :=
  ⟨by decide, by decide, by decide, by decide, by decide, by decide, by decide, ⟨⟨true, false⟩, rfl, rfl, fun _ _ => rfl⟩⟩
theorem inv_sending_frame : Inv (sending 2#13 28) :=
  ⟨by decide, by decide, by decide, by decide, by decide, by decide, by decide, ⟨⟨true, true⟩, rfl, rfl, fun _ _ => rfl⟩⟩
theorem inv_sending_byte : Inv (sending 2#13 55) :=
  ⟨by decide, by decide, by decide, by decide, by decide, by decide, by decide, ⟨⟨true, true⟩, rfl, rfl, fun _ _ => rfl⟩⟩

theorem witness_ResetEventUnbuildsOrBuildsAfresh :
    (0#13).toNat = 0 ∧ 5461 < (5462#13).toNat ∧ (1 ≤ (1#13).toNat ∧ (1#13).toNat ≤ 5461) ∧
    (1 ≤ (5461#13).toNat ∧ (5461#13).toNat ≤ 5461) := by decide

theorem witness_ConstructLeavesTheResetTable :
    (1 ≤ (5461#13).toNat ∧ (5461#13).toNat ≤ 5461) ∧ 65531 < 12 * (5461#13).toNat ∧ 12 * (5461#13).toNat ≤ 65532 := by decide

theorem witness_ConstructRejectsAnInvalidCount : (0#13).toNat = 0 ∧ 5461 < (5462#13).toNat ∧ 5461 < (8191#13).toNat := by decide

theorem witness_UnbuiltBlockRefusesEveryCommand :
    State.reset.valid = false ∧
    [Instr.begin, .setpct 0#16 0#32, .setpwm 0#16 1#16, .flush].all Instr.isCommand = true := by decide

theorem witness_BeginConfiguresTheTransportOnce :
    ((built 1#13).valid = true ∧ (built 1#13).init = false) ∧ State.reset.valid = false ∧ (ready 1#13).init = true := by decide

theorem witness_BeginCommutesWithSetters :
    (Instr.setpwm 3#16 7#16).isSetter = true ∧ (Instr.setpct 3#16 0x7FC00000#32).isSetter = true ∧
    (built 1#13).valid = true ∧ (built 1#13).init = false := by decide

theorem witness_SetpwmComparesAndWrites :
    State.reset.valid = false ∧ (built 1#13).valid = true ∧ (built 1#13).maxch.toNat < (12#16).toNat ∧
    (11#16).toNat ≤ (built 1#13).maxch.toNat ∧ (built 1#13).memRead (11#16).toNat = some 0#16 ∧
    (built 1#13).memRead (11#16).toNat ≠ some 0xFFFF#16 ∧ (built 1#13).ch.wf := by decide

theorem witness_SettersChangeOnlyTheirSlot :
    (Instr.setpwm 11#16 7#16).isSetter = true ∧ (Instr.setpwm 11#16 7#16).channel = some 11 ∧ (built 1#13).ch.wf ∧ 10 ≠ 11 ∧
    (Instr.setpwm 11#16 7#16).isCommand = true ∧ (nextOf (exec (.setpwm 11#16 7#16) (built 1#13))).isSome = true ∧
    (Instr.setpwm 11#16 7#16).channel ≠ some 10 ∧ Instr.flush.isCommand = true ∧ Instr.flush.channel ≠ some 11 ∧
    (nextOf (exec .flush (ready 1#13))).isSome = true := by decide

theorem witness_SetpctScalesThenSets :
    State.reset.valid = false ∧ (built 1#13).valid = true ∧ decodePercent 0x7FC00000#32 = .nan ∧
    decodePercent 0x42C80000#32 ≠ .nan ∧ (built 1#13).ch.wf ∧ (11#16).toNat ≤ (built 1#13).maxch.toNat := by decide

theorem witness_NanPercentIsRefused :
    (built 1#13).valid = true ∧ (0x7F800001#32).extractLsb' 23 8 = 255#8 ∧ (0x7F800001#32).extractLsb' 0 23 ≠ 0#23 ∧
    (0xFFFFFFFF#32).extractLsb' 23 8 = 255#8 ∧ (0xFFFFFFFF#32).extractLsb' 0 23 ≠ 0#23 := by decide

/-- Boundary patterns of the five clauses: the smallest NaN, the infinities, the largest subnormal, the smallest and the
largest normal number. -/
theorem witness_PercentDecodesAsBinary32 :
    (0x7F800001 / 2 ^ 23 % 256 = 255 ∧ 0x7F800001 % 2 ^ 23 ≠ 0) ∧
    (0x7F800000 / 2 ^ 23 % 256 = 255 ∧ 0x7F800000 % 2 ^ 23 = 0 ∧ 0x7F800000 / 2 ^ 31 = 0) ∧
    (0xFF800000 / 2 ^ 23 % 256 = 255 ∧ 0xFF800000 % 2 ^ 23 = 0 ∧ 0xFF800000 / 2 ^ 31 = 1) ∧
    0x007FFFFF / 2 ^ 23 % 256 = 0 ∧ 0 < 0x00800000 / 2 ^ 23 % 256 ∧ 0x7F7FFFFF / 2 ^ 23 % 256 < 255 := by decide

/-- 0, the smallest positive value, the largest value below 100 that is a multiple of `2^-149`, and 100. -/
theorem witness_ScaleIsTheTruncatedProduct :
    (∃ p, (Percent.finite 0).toRat = some p ∧ p ≤ 0) ∧
    (∃ p, (Percent.finite 1).toRat = some p ∧ 0 < p ∧ p < 100) ∧
    (∃ p, (Percent.finite (100 * 2 ^ 149 - 1)).toRat = some p ∧ 0 < p ∧ p < 100) ∧
    (∃ p, (Percent.finite (100 * 2 ^ 149)).toRat = some p ∧ 100 ≤ p) := by
  refine ⟨⟨_, rfl, ?_⟩, ⟨_, rfl, ?_, ?_⟩, ⟨_, rfl, ?_, ?_⟩, ⟨_, rfl, ?_⟩⟩ <;> norm_num

theorem witness_ScaleEndPointsRangeAndOrder :
    Percent.posInf ≠ Percent.nan ∧ Percent.le (.finite 0) (.finite (100 * 2 ^ 149)) ∧ scale (.finite 0) = some 0 ∧
    scale (.finite (100 * 2 ^ 149)) = some 65535 :=
  ⟨by decide, (by decide : (0 : Int) ≤ 100 * 2 ^ 149), by decide, by decide⟩

theorem witness_FlushTransmitsTheWholeChain :
    State.reset.valid = false ∧ (built 1#13).init = false ∧
    ((ready 1#13).valid = true ∧ (ready 1#13).init = true ∧ (ready 1#13).maxch.toNat + 1 = 12 * (ready 1#13).nchain) ∧
    ((ready 5461#13).valid = true ∧ (ready 5461#13).init = true ∧
      (ready 5461#13).maxch.toNat + 1 = 12 * (ready 5461#13).nchain) := by decide

theorem witness_StreamIsItsFrameBytes : 0 < 12 ∧ 11 < 12 ∧ 27 < 28 * 1 := by decide

theorem witness_HeaderOpensEveryFrame : 0 < 1 ∧ 5460 < 5461 := by decide

theorem witness_SerialBitsAreMostSignificantFirst : 223 < 224 * 1 ∧ 0 < 1 ∧ 31 < 32 ∧ 11 < 12 ∧ 15 < 16 := by decide

theorem witness_WireWordIsTheSerialFrame : (Instr.writeFrame (List.replicate 12 0xABCD#16)).wellFormed = true := by decide

/-- The first and the last frame of a flush of two ICs. -/
theorem witness_WriteFrameEmitsTheFrameThatIsDue :
    (sending 2#13 0).valid = true ∧ (sending 2#13 0).busy = true ∧ (sending 2#13 0).pos = 28 * 0 ∧ 0 + 1 < (sending 2#13 0).nchain ∧
    (sending 2#13 0).maxch.toNat + 1 = 12 * (sending 2#13 0).nchain ∧
    (sending 2#13 28).valid = true ∧ (sending 2#13 28).busy = true ∧ (sending 2#13 28).pos = 28 * 1 ∧
    1 + 1 = (sending 2#13 28).nchain ∧ (sending 2#13 28).maxch.toNat + 1 = 12 * (sending 2#13 28).nchain ∧
    List.replicate 12 0#16 = (List.range 12).map (fun j => (sending 2#13 28).ch.read (12 * 1 + j)) := by decide

/-- An idle block, a flush inside a frame, and a frame of other values. -/
theorem witness_FrameIsOutputOnly :
    ¬ ((ready 1#13).busy = true) ∧ ¬ ((sending 1#13 27).pos % 28 = 0) ∧
    ¬ (List.replicate 12 1#16 = (List.range 12).map fun j =>
      (sending 1#13 0).ch.read (12 * ((sending 1#13 0).pos / 28) + j)) := by decide

/-- One slot too few, an unbuilt block, and a position after the last frame. -/
theorem witness_ReadsOutsideTheChannelSpaceStop :
    (let s := { ready 1#13 with maxch := 10#16 }
     s.valid = true ∧ s.init = true ∧ s.maxch.toNat + 1 < 12 * s.nchain) ∧
    (let s := { sending 2#13 28 with maxch := 22#16 }
     s.busy = true ∧ s.pos = 28 * 1 ∧ 1 < s.nchain ∧ s.maxch.toNat + 1 < 12 * s.nchain) ∧
    (let s := { sending 1#13 0 with valid := false }
     s.busy = true ∧ s.pos = 28 * 0 ∧ 0 < s.nchain ∧ s.valid = false) ∧
    (let s := sending 1#13 28
     s.busy = true ∧ s.pos = 28 * 1 ∧ s.nchain ≤ 1) := by decide

/-- Two flushes with refused commands and a flush between them. -/
theorem witness_FlushRepeatsWhileNoSlotIsWritten :
    ∃ s t t' u : State, ∃ rs : List Reply,
      (∀ i ∈ [Instr.setpwm 0#16 0#16, .setpwm 12#16 1#16, .begin, .flush], i.isCommand = true) ∧
      s.valid = true ∧ s.init = true ∧ exec .flush s = .next t ∧
      execAll [.setpwm 0#16 0#16, .setpwm 12#16 1#16, .begin, .flush] t = .next t' ∧ t'.replies = t.replies ++ rs ∧
      (∀ st, Reply.response ⟨true, st⟩ ∉ rs) ∧ exec .flush t' = .next u :=
  ⟨ready 1#13, _, _, _, [.response ⟨false, .unchanged⟩, .response ⟨false, .range⟩, .response ⟨false, .config⟩,
    .response ⟨false, .ok⟩], by decide, rfl, rfl, rfl, rfl, rfl, by simp, rfl⟩

theorem witness_OneSlotChangesTwoBytes : Memory.wf [(3, 7#16)] ∧ 0 < 1 ∧ 11 < 12 ∧ 27 ≠ 28 * 0 + 4 + 2 * (11 - 11) := by decide

theorem witness_FlushSendsTheLastValuesSet : (1 ≤ (1#13).toNat ∧ (1#13).toNat ≤ 5461) ∧ (5461#13).toNat ≤ 5461 := by decide

/-- A refused command and a performed one. -/
theorem witness_RefusedCommandLeavesNoTrace :
    Instr.flush.isCommand = true ∧
    exec .flush (built 1#13) = .next { built 1#13 with replies := [.driver, .response ⟨false, .config⟩] } ∧
    (⟨false, .config⟩ : Response).status ≠ .ok := ⟨rfl, rfl, by decide⟩

theorem witness_ReturnBitMeansASlotWasWritten :
    (Instr.setpwm 11#16 7#16).isCommand = true ∧ (built 1#13).ch.wf ∧
    exec (.setpwm 11#16 7#16) (built 1#13) =
      .next { built 1#13 with ch := [(11, 7#16)], replies := [.driver] ++ [.response ⟨true, .ok⟩] } :=
  ⟨rfl, by decide, rfl⟩

theorem witness_DecodingFollowsTheOpcodeMap :
    decodeCmd 0x2000B0000FFFF#51 = .ok (.setpwm 11#16 65535#16) ∧ decodeCmd 0x4000000000000#51 = .error (.reservedOp 4#3) ∧
    opcodeMap.any (fun r => r.selects 0x2000B0000FFFF#51) = true ∧
    opcodeMap.all (fun r => r.selects 0x4000000000000#51 = false) = true := by decide

/-- A word for each part of the definition of an illegal word, at its boundary, and a state that takes it. -/
theorem witness_IllegalWordsAreReportedAndIgnored :
    4 ≤ 0x4000000000000 / 2 ^ 48 ∧ (0x0000000000001 / 2 ^ 48 = 0 ∧ 0x0000000000001 % 2 ^ 48 ≠ 0) ∧
    (0x3800000000000 / 2 ^ 48 = 3 ∧ 0x3800000000000 % 2 ^ 48 ≠ 0) ∧
    (0x2000000010000 / 2 ^ 48 = 2 ∧ 0x2000000010000 / 2 ^ 16 % 2 ^ 16 ≠ 0) ∧
    (let w := 0x200000000FFFF
     ¬ (4 ≤ w / 2 ^ 48 ∨ ((w / 2 ^ 48 = 0 ∨ w / 2 ^ 48 = 3) ∧ w % 2 ^ 48 ≠ 0) ∨ (w / 2 ^ 48 = 2 ∧ w / 2 ^ 16 % 2 ^ 16 ≠ 0))) ∧
    ({ State.reset with port := [.command 0x4000000000000#51] } : State).busy = false := by decide

theorem witness_DecodeUndoesEncode :
    (Instr.writeFrame (List.replicate 12 0xFFFF#16)).wellFormed = true ∧ (Instr.setpct 65535#16 0xFFFFFFFF#32).wellFormed = true ∧
    (Instr.construct 8191#13).wellFormed = true := by decide

theorem witness_EncodeUndoesDecode : decode (.wire224 (0x96DFFFFF#32 ++ 0#192)) = .ok (.writeFrame (List.replicate 12 0#16)) := by
  decide

/-- A setter and an atomic FLUSH; a FLUSH begun; one refused; nothing presented; a frame due; a byte inside a frame, a byte at a
boundary, and the last byte. -/
theorem witness_StepRunsTheDecodedOperation :
    (let s := { ready 1#13 with port := [.command 0x2000B0000FFFF#51] }
     s.busy = false ∧ s.port = [.command 0x2000B0000FFFF#51] ∧
      decode (PortWord.command 0x2000B0000FFFF#51).code = .ok (.setpwm 11#16 65535#16)) ∧
    (decode (PortWord.command 0x3000000000000#51).code = .ok .flush ∧ (ready 1#13).grain = .flush) ∧
    (let s := { ready 1#13 with grain := .byte, port := [.command 0x3000000000000#51] }
     s.busy = false ∧ s.grain ≠ .flush ∧ s.valid = true ∧ s.init = true) ∧
    (State.reset.valid = false ∧ (built 1#13).init = false) ∧
    (State.reset.busy = false ∧ State.reset.port = []) ∧
    (let s := { sending 2#13 28 with grain := .frame }
     s.busy = true ∧ s.grain = .frame ∧ s.pos = 28 * 1) ∧
    (let s := { sending 2#13 29 with grain := .frame }
     s.busy = true ∧ s.pos % 28 ≠ 0 ∧ s.valid = true ∧ s.maxch.toNat + 1 = 12 * s.nchain ∧ s.pos + 1 < 28 * s.nchain) ∧
    (let s := { sending 2#13 28 with grain := .byte }
     s.busy = true ∧ s.grain ≠ .frame ∧ s.valid = true ∧ s.maxch.toNat + 1 = 12 * s.nchain ∧ s.pos + 1 < 28 * s.nchain) ∧
    (sending 2#13 55).busy = true ∧ (sending 2#13 55).pos + 1 = 28 * (sending 2#13 55).nchain := by decide

theorem witness_BusyBlockHoldsThePort :
    (sending 2#13 27).busy = true ∧ (nextOf (step (sending 2#13 27))).isSome = true ∧
    (sending 1#13 0).busy = true ∧ (nextOf (step (sending 1#13 0))).isSome = true := by decide

theorem witness_StepKeepsTheInvariant :
    (Inv (ready 2#13) ∧ (nextOf (step (ready 2#13))).isSome = true) ∧
    (Inv (sending 2#13 28) ∧ (nextOf (step (sending 2#13 28))).isSome = true) ∧
    (Inv (sending 2#13 55) ∧ (nextOf (step (sending 2#13 55))).isSome = true) :=
  ⟨⟨inv_ready, by decide⟩, ⟨inv_sending_frame, by decide⟩, ⟨inv_sending_byte, by decide⟩⟩

theorem witness_LegalRunsAreSafe : Inv (ready 2#13) ∧ Inv (sending 2#13 28) ∧ Inv (sending 2#13 55) :=
  ⟨inv_ready, inv_sending_frame, inv_sending_byte⟩

theorem witness_ByteSequencerRefinesFlush :
    (sending 2#13 27).busy = true ∧
    (let s := { ready 2#13 with ch := [(12, 0x1234#16)] }
     s.valid = true ∧ s.init = true ∧ s.busy = false ∧ s.pos = 0 ∧ 1 ≤ s.nchain ∧ s.maxch.toNat + 1 = 12 * s.nchain ∧
      55 < 28 * s.nchain) := by decide

theorem witness_ByteStepsRefineFlush :
    let s := { ready 2#13 with grain := .byte, port := [.command 0x3000000000000#51, .command 0x0000000000000#51] }
    s.valid = true ∧ s.init = true ∧ s.busy = false ∧ s.pos = 0 ∧ 1 ≤ s.nchain ∧ s.maxch.toNat + 1 = 12 * s.nchain ∧
    s.grain = .byte ∧ s.port = .command 0x3000000000000#51 :: [.command 0x0000000000000#51] ∧ 55 < 28 * s.nchain := by decide

theorem witness_FrameStepsRefineFlush :
    let s := { ready 5461#13 with grain := .frame, port := [.command 0x3000000000000#51] }
    s.valid = true ∧ s.init = true ∧ s.busy = false ∧ s.pos = 0 ∧ 1 ≤ s.nchain ∧ s.maxch.toNat + 1 = 12 * s.nchain ∧
    s.grain = .frame ∧ s.port = .command 0x3000000000000#51 :: [] ∧ 5460 < s.nchain := by decide

theorem witness_FrameIsItsTwentyEightBytes :
    let s := sending 2#13 28
    s.valid = true ∧ s.busy = true ∧ s.pos = 28 * 1 ∧ 1 < s.nchain ∧ s.maxch.toNat + 1 = 12 * s.nchain := by decide

theorem witness_FlushInProgressEnds : Inv (sending 2#13 55) ∧ (sending 2#13 55).busy = true := ⟨inv_sending_byte, rfl⟩

/-- Two power-on states that differ in every item without meaning, with a command to take. -/
theorem witness_UnbuiltItemsAreUnobservable :
    let s := { State.reset with port := [.command 0x3000000000000#51] }
    let s' := { s with nchain := 7, maxch := 9#16, cfg := 1#32, init := true, ch := [(3, 5#16)], pos := 2 }
    s ≠ s' ∧ Alike s s' ∧ (nextOf (step s)).isSome = true :=
  ⟨by decide, ⟨rfl, rfl, rfl, rfl, rfl, fun h => absurd h (by decide), fun _ => ⟨rfl, rfl⟩⟩, by decide⟩

theorem witness_OnlyResetAndBeginChangeTheMode :
    (nextOf (exec .begin (built 1#13))).map State.mode = some .ready ∧ (built 1#13).mode = .built ∧
    (nextOf (exec (.construct 1#13) State.reset)).map State.mode = some .built ∧ State.reset.mode = .unbuilt := by decide

theorem witness_OnlyResetWritesControlRegisters :
    (∀ n, Instr.flush ≠ .construct n) ∧ (nextOf (exec .flush (ready 1#13))).isSome = true ∧ (ready 1#13).init = true ∧
    Instr.flush.isSetter = false := ⟨fun _ h => Instr.noConfusion h, by decide, rfl, rfl⟩

theorem witness_OnlyAFlushTransmits :
    (nextOf (exec .flush (ready 1#13))).isSome = true ∧ (nextOf (exec .begin (built 1#13))).isSome = true ∧
    (nextOf (exec (.setpwm 0#16 1#16) (ready 1#13))).isSome = true ∧
    (nextOf (exec (.writeFrame (List.replicate 12 0#16)) (sending 1#13 0))).isSome = true := by decide

theorem witness_EqualReadsMeanEqualMemories :
    Memory.wf (Memory.write [] 3 7#16) ∧ Memory.wf [(3, 7#16)] ∧ (∀ i, (Memory.write [] 3 7#16).read i = Memory.read [(3, 7#16)] i) :=
  ⟨by decide, by decide, fun _ => rfl⟩

/-- The largest finite pattern and the smallest subnormal; the literals 12.50 and -0. -/
theorem witness_ExactLiteralsKeepTheirPattern :
    f32Exp 0x7F7FFFFF#32 ≠ 255#8 ∧ f32Exp 0x00000001#32 ≠ 255#8 ∧
    (f32Exp 0x41480000#32 ≠ 255#8 ∧ false = f32Sign 0x41480000#32 ∧ 1250 * 2 ^ 149 = f32Units 0x41480000#32 * 10 ^ 2) ∧
    (true = f32Sign 0x80000000#32 ∧ 0 * 2 ^ 149 = f32Units 0x80000000#32 * 10 ^ 0) := by decide

end Sys2Proof.Tests
end

