-- ==== Sys2Proof/Proofs/Step.lean ====
section
/-! SUPPORT. The step case by case: a FLUSH taken from the port, a frame, a byte inside a flush and the last one. -/

namespace Sys2Proof.Machine

/-- On a block that is not ready FLUSH is refused in its atomic form (rule R95). -/
theorem execFlush_refused {s : State} (h : s.valid = false ∨ s.init = false) :
    execFlush s = .next (s.respond false .config) := by
  rcases execFlush_cases s with ⟨-, he⟩ | ⟨hv, hi, -, -⟩ | ⟨hv, hi, -, -⟩
  · exact he
  · simp [hv, hi] at h
  · simp [hv, hi] at h

/-- On a block that is not ready FLUSH is refused in its refined form too (rules R95 and R97). -/
theorem flushStart_refused {s : State} (hb : s.busy = false) (h : s.valid = false ∨ s.init = false) :
    flushStart s = .next (s.respond false .config) := by
  rcases flushStart_cases s with ⟨hb', -⟩ | ⟨-, -, he⟩ | ⟨-, hv, hi, -⟩
  · simp [hb] at hb'
  · exact he
  · simp [hv, hi] at h

/-- On a ready block a refined FLUSH begins (rule R97). -/
theorem flushStart_begins {s : State} (hb : s.busy = false) (hv : s.valid = true) (hi : s.init = true) :
    flushStart s = .next { s.emit [.critEnter] with busy := true, pos := 0 } := by
  simp [flushStart, hb, hv, hi]

/-- When an operation taken from the port runs in the step that takes it. -/
theorem State.startsFlush_eq_false {s : State} {i : Instr} :
    s.startsFlush i = false ↔ (i = .flush → s.grain = .flush) := by
  simp [State.startsFlush]

/-- When a step of a flush in progress gives a byte. -/
theorem State.givesFrame_eq_false {s : State} (h : s.grain ≠ .frame ∨ s.pos % 28 ≠ 0) : s.givesFrame = false := by
  refine Bool.eq_false_iff.2 fun hf => ?_
  obtain ⟨-, hg, hp⟩ := State.givesFrame_iff.1 hf
  exact h.elim (· hg) (· hp)

/-- Whatever the grain, a FLUSH taken on a block that is not ready answers `(0, ST_CONFIG)` (rule R95). -/
theorem step_flush_refused {s : State} {p : PortWord} {rest : List PortWord} (hb : s.busy = false)
    (hp : s.port = p :: rest) (hd : decode p.code = .ok .flush) (h : s.valid = false ∨ s.init = false) :
    step s = .next ({ s with port := rest }.respond false .config) := by
  by_cases hg : s.grain = .flush
  · rw [step_taken hb hp hd (State.startsFlush_eq_false.2 fun _ => hg)]
    exact execFlush_refused (s := { s with port := rest }) h
  · rw [step_start hb hp hd hg]
    exact flushStart_refused (s := { s with port := rest }) hb h

/-- At the first byte of the frame of IC `k` a machine of that grain runs the WRITE_FRAME of that IC (assumption 3). -/
theorem step_writeFrame {s : State} {k : Nat} (hb : s.busy = true) (hg : s.grain = .frame) (hp : s.pos = 28 * k) :
    step s = exec (.writeFrame (icSlots s.ch k)) s := by
  have hf : s.givesFrame = true := State.givesFrame_iff.2 ⟨hb, hg, by omega⟩
  have hk : s.pos / Config.frameBytes = k := by simp [hp, Config.frameBytes]
  simp [step, hb, hf, hk]

/-- A byte step before the last moves `POS` by 1 (rule R97). -/
theorem seqByte_on {s : State} (hm : s.bufferMapped = true) (hp : s.pos + 1 < 28 * s.nchain) :
    seqByte s = .next { s.emit [.tx (frameByte s.cfg s.ch (s.pos / 28) (s.pos % 28))] with pos := s.pos + 1 } := by
  rw [seqByte, seqEmit_eq (by omega) hm]
  exact congrArg _ (seqAdvance_on hp.ne)

/-- The last byte step ends the flush (rule R97). -/
theorem seqByte_last {s : State} (hm : s.bufferMapped = true) (hp : s.pos + 1 = 28 * s.nchain) :
    seqByte s = .next (flushFinish (s.emit [.tx (frameByte s.cfg s.ch (s.pos / 28) (s.pos % 28))])) := by
  rw [seqByte, seqEmit_eq (by omega) hm]
  exact congrArg _ (seqAdvance_finish hp)

/-- The record at the end of a flush, field by field. -/
theorem flushFinish_emit (s : State) (es : List Event) :
    flushFinish (s.emit es) = { s with
      busy := false
      pos := 0
      events := s.events ++ (es ++ [.critExit])
      replies := s.replies ++ [.response ⟨false, .ok⟩] } := by
  rw [← List.append_assoc]
  rfl

/-- Settles O33, clause by clause from the rules of the step: outside a flush by whether the operation begins a refined flush,
in a flush by whether the step gives a frame, a byte before the last, or the last byte. -/
theorem stepRunsTheDecodedOperation : Obligations.StepRunsTheDecodedOperation := by
  refine ⟨?taken, ?begun, ?refused, ?idle, ?frame, ?byte⟩
  case taken => exact fun s p rest i hb hp hd hi => step_taken hb hp hd (State.startsFlush_eq_false.2 hi)
  case begun =>
    intro s p rest hb hp hd hg hv hi
    rw [step_start hb hp hd hg]
    exact flushStart_begins (s := { s with port := rest }) hb hv hi
  case refused => exact fun s p rest hb hp hd h => step_flush_refused hb hp hd h
  case idle => exact fun s hb hp => step_idle hb hp
  case frame => exact fun s k hb hg hp => step_writeFrame hb hg hp
  case byte =>
    intro s hb hgp hv hmax
    have hm : s.bufferMapped = true := State.bufferMapped_iff.2 ⟨hv, hmax.ge⟩
    rw [step_byte hb (State.givesFrame_eq_false hgp)]
    refine ⟨fun hon => seqByte_on hm hon, fun hlast => ?_⟩
    rw [seqByte_last hm hlast, flushFinish_emit]
    rfl

end Sys2Proof.Machine
end

