-- ==== Sys2Proof/Proofs/Invariant.lean ====
section
/-! SUPPORT. The devices' protocol over lists of events, and the invariant, kept by each operation and so by every step. -/

namespace Sys2Proof.Machine

/-! ### The devices' protocol -/

theorem LineState.run_append (l : LineState) (es fs : List Event) :
    l.run (es ++ fs) = (l.run es).bind fun l' => l'.run fs := by
  induction es generalizing l with
  | nil => rfl
  | cons e es ih => simp [LineState.run, ih, Option.bind_assoc]

/-- Two lists of events that each keep the protocol keep it one after the other. -/
theorem LineState.run_trans {l l' l'' : LineState} {es fs : List Event} (hes : l.run es = some l')
    (hfs : l'.run fs = some l'') : l.run (es ++ fs) = some l'' := by
  rw [LineState.run_append, hes, Option.bind_some, hfs]

/-- Bytes sent inside a critical section change nothing the devices keep. -/
theorem LineState.run_tx {l : LineState} (hl : l.held = true) (bs : List Byte) : l.run (bs.map .tx) = some l := by
  induction bs with
  | nil => rfl
  | cons b bs ih => simpa [LineState.run, LineState.after, hl] using ih

theorem LineState.run_critEnter {l : LineState} (hh : l.held = false) (hc : l.configured = true) :
    l.run [.critEnter] = some { l with held := true } := by
  simp [LineState.run, LineState.after, hh, hc]

theorem LineState.run_critExit {l : LineState} (hl : l.held = true) :
    l.run [.critExit] = some { l with held := false } := by
  simp [LineState.run, LineState.after, hl]

theorem LineState.run_tConfig {l : LineState} (hl : l.held = false) (c : TransportConfig) :
    l.run [.tConfig c] = some { l with configured := true } := by
  simp [LineState.run, LineState.after, hl]

/-- An atomic FLUSH is one whole critical section: the devices are left as they were (rule R94). -/
theorem LineState.run_flushEvents {l : LineState} (hh : l.held = false) (hc : l.configured = true) (s : State) :
    l.run (flushEvents s) = some l := by
  have hexit : LineState.run { l with held := true } [.critExit] = some l := by
    rw [LineState.run_critExit rfl, ← hh]
  have hbytes := LineState.run_trans (LineState.run_critEnter hh hc)
    (LineState.run_tx rfl (stream s.cfg s.ch s.nchain))
  exact LineState.run_trans hbytes hexit

/-! ### The operations keep the invariant -/

/-- The invariant speaks of the block and of the events alone. -/
theorem Inv.of_toBlock_eq {s t : State} (h : Inv s) (hb : t.toBlock = s.toBlock) (he : t.events = s.events) : Inv t := by
  obtain ⟨b, g, p, r, es⟩ := s
  obtain ⟨b', g', p', r', es'⟩ := t
  obtain rfl : b' = b := hb
  obtain rfl : es' = es := he
  exact ⟨h.canonical, h.count, h.highest, h.slots, h.configWord, h.idle, h.flushing, h.line⟩

theorem Inv.respond {s : State} (h : Inv s) (ret : Bool) (st : Status) : Inv (s.respond ret st) := h.of_toBlock_eq rfl rfl

theorem Inv.reply {s : State} (h : Inv s) (r : Reply) : Inv (s.reply r) := h.of_toBlock_eq rfl rfl

/-- Taking a word from the port leaves the block alone. -/
theorem Inv.withPort {s : State} (h : Inv s) (rest : List PortWord) : Inv { s with port := rest } := h.of_toBlock_eq rfl rfl

/-- A rejected CONSTRUCT unbuilds an idle block, of which little is left to say (rule R65). -/
theorem Inv.unbuild {s : State} (h : Inv s) (hb : s.busy = false) : Inv { s with valid := false } where
  canonical := h.canonical
  count hv := nomatch hv
  highest hv := nomatch hv
  slots hv := nomatch hv
  configWord hv := nomatch hv
  idle := h.idle
  flushing hbusy := nomatch hb.symm.trans hbusy
  line := by
    obtain ⟨l, hrun, hheld, -⟩ := h.line
    exact ⟨l, hrun, hheld, fun hv => nomatch hv⟩

/-- `MAXCH` of an admitted count fits its 16 bits (rules R15 and R16). -/
theorem maxch_toNat {n : BitVec 13} (hn : n.toNat ≤ 5461) :
    (BitVec.ofNat 16 (12 * n.toNat - 1)).toNat = 12 * n.toNat - 1 := by
  rw [BitVec.toNat_ofNat]
  omega

theorem Inv.execConstruct {n : BitVec 13} {s t : State} (h : Inv s) (hb : s.busy = false)
    (ht : execConstruct n s = .next t) : Inv t := by
  rcases execConstruct_cases n s with ⟨-, he⟩ | ⟨hn1, hn, he⟩
  · cases he.symm.trans ht
    exact (h.unbuild hb).reply _
  · cases he.symm.trans ht
    refine Inv.reply ?_ _
    obtain ⟨l, hrun, hheld, -⟩ := h.line
    exact {
      canonical := Memory.wf_nil
      count := fun _ => ⟨hn1, hn⟩
      highest := fun _ => by
        simp only [maxch_toNat hn, Config.nch]
        omega
      slots := fun _ p hp => nomatch hp
      configWord := fun _ => rfl
      idle := fun _ => rfl
      flushing := fun hbusy => nomatch hbusy
      line := ⟨l, hrun, hheld.trans hb, fun _ hi => nomatch hi⟩ }

theorem Inv.execBegin {s t : State} (h : Inv s) (hb : s.busy = false) (ht : execBegin s = .next t) : Inv t := by
  rcases execBegin_cases s with ⟨he, -⟩ | ⟨-, -, he⟩
  · cases he.symm.trans ht
    exact h.respond _ _
  · cases he.symm.trans ht
    refine Inv.respond ?_ _ _
    obtain ⟨l, hrun, hheld, -⟩ := h.line
    have hrun' : LineState.initial.run (s.events ++ [.tConfig Config.tcfg]) = some { l with configured := true } :=
      LineState.run_trans hrun (LineState.run_tConfig (hheld.trans hb) _)
    exact { h with
      flushing := fun hbusy => nomatch hb.symm.trans hbusy
      line := ⟨_, hrun', hheld, fun _ _ => rfl⟩ }

/-- A write to a slot of a built block stays in the channel space, whose last slot is `MAXCH` (rules R21 and R87). -/
theorem Inv.memWrite {s : State} (h : Inv s) (hv : s.valid = true) {i : Nat} (hi : i ≤ s.maxch.toNat) (v : Duty) :
    Inv (s.memWrite i v) := by
  have hslots : ∀ p ∈ s.ch.write i v, p.1 < Config.nch * s.nchain := by
    intro p hp
    rcases Memory.mem_write hp with hold | ⟨rfl, -⟩
    · exact h.slots hv p hold
    · exact Nat.lt_of_lt_of_eq (Nat.lt_succ_of_le hi) (h.highest hv)
  exact { h with canonical := Memory.wf_write h.canonical i v, slots := fun _ => hslots }

/-- A setter that completes has answered as setters do (rules R76 and R80). -/
theorem SetterAnswer.of_exec {i : Instr} {s t : State} (hi : i.isSetter = true) (ht : exec i s = .next t) :
    ∃ chan, SetterAnswer chan s t := by
  cases i with
  | setpct chan arg =>
    obtain ⟨u, hu, ha⟩ := execSetpct_answer chan arg s
    cases hu.symm.trans ht
    exact ⟨chan, ha⟩
  | setpwm chan val =>
    obtain ⟨u, hu, ha⟩ := execSetpwm_answer chan val s
    cases hu.symm.trans ht
    exact ⟨chan, ha⟩
  | construct n => cases hi
  | begin => cases hi
  | flush => cases hi
  | writeFrame v => cases hi

theorem Inv.setterAnswer {chan : Chan} {s t : State} (h : Inv s) (ht : SetterAnswer chan s t) : Inv t := by
  rcases ht with ⟨st, -, rfl⟩ | ⟨hv, hle, v, -, rfl⟩
  · exact h.respond _ _
  · exact (h.memWrite hv hle v).respond _ _

theorem Inv.execFlush {s t : State} (h : Inv s) (hb : s.busy = false) (ht : execFlush s = .next t) : Inv t := by
  rcases execFlush_cases s with ⟨-, he⟩ | ⟨hv, hi, -, he⟩ | ⟨-, -, -, he⟩
  · cases he.symm.trans ht
    exact h.respond _ _
  · cases he.symm.trans ht
    refine Inv.respond ?_ _ _
    obtain ⟨l, hrun, hheld, hconf⟩ := h.line
    have hrun' : LineState.initial.run (s.events ++ flushEvents s) = some l :=
      LineState.run_trans hrun (LineState.run_flushEvents (hheld.trans hb) (hconf hv hi) s)
    exact { h with line := ⟨l, hrun', hheld, hconf⟩ }
  · cases he.symm.trans ht

/-- An idle block runs every operation of the port with the invariant kept. -/
theorem Inv.exec {i : Instr} {s t : State} (h : Inv s) (hb : s.busy = false) (hi : ∀ v, i ≠ .writeFrame v)
    (ht : exec i s = .next t) : Inv t := by
  cases i with
  | construct n => exact h.execConstruct hb ht
  | begin => exact h.execBegin hb ht
  | setpct chan arg =>
    obtain ⟨_, ha⟩ := SetterAnswer.of_exec rfl ht
    exact h.setterAnswer ha
  | setpwm chan val =>
    obtain ⟨_, ha⟩ := SetterAnswer.of_exec rfl ht
    exact h.setterAnswer ha
  | flush => exact h.execFlush hb ht
  | writeFrame v => exact absurd rfl (hi v)

/-! ### The sequencer keeps the invariant -/

/-- The critical section is entered as the flush begins (rules R94 and R97). -/
theorem Inv.flushStart {s t : State} (h : Inv s) (ht : flushStart s = .next t) : Inv t := by
  rcases flushStart_cases s with ⟨-, he⟩ | ⟨-, -, he⟩ | ⟨hb, hv, hi, he⟩
  · cases he.symm.trans ht
    exact h
  · cases he.symm.trans ht
    exact h.respond _ _
  · cases he.symm.trans ht
    obtain ⟨l, hrun, hheld, hconf⟩ := h.line
    have hrun' : LineState.initial.run (s.events ++ [.critEnter]) = some { l with held := true } :=
      LineState.run_trans hrun (LineState.run_critEnter (hheld.trans hb) (hconf hv hi))
    have hpos : 0 < Config.frameBytes * s.nchain := Nat.mul_pos (by decide) (h.count hv).1
    exact { h with
      idle := fun hidle => nomatch hidle
      flushing := fun _ => ⟨hv, hi, hpos⟩
      line := ⟨_, hrun', rfl, hconf⟩ }

/-- Bytes that do not reach the end of the stream leave the flush in progress (rule R97). -/
theorem Inv.seqOn {s : State} (h : Inv s) (hb : s.busy = true) {bytes : List Byte}
    (hlt : s.pos + bytes.length < 28 * s.nchain) :
    Inv { s.emit (bytes.map .tx) with pos := s.pos + bytes.length } := by
  obtain ⟨hv, hi, -⟩ := h.flushing hb
  obtain ⟨l, hrun, hheld, hconf⟩ := h.line
  have hrun' : LineState.initial.run (s.events ++ bytes.map .tx) = some l :=
    LineState.run_trans hrun (LineState.run_tx (hheld.trans hb) bytes)
  exact { h with
    idle := fun hidle => nomatch hb.symm.trans hidle
    flushing := fun _ => ⟨hv, hi, hlt⟩
    line := ⟨l, hrun', hheld, hconf⟩ }

/-- The last bytes and the end of the flush: the critical section is released (rules R94 and R97). -/
theorem Inv.seqFinish {s : State} (h : Inv s) (hb : s.busy = true) (bytes : List Byte) :
    Inv (flushFinish (s.emit (bytes.map .tx))) := by
  obtain ⟨l, hrun, hheld, hconf⟩ := h.line
  have hl : l.held = true := hheld.trans hb
  have hrun' : LineState.initial.run (s.events ++ bytes.map .tx ++ [.critExit]) = some { l with held := false } :=
    LineState.run_trans (LineState.run_trans hrun (LineState.run_tx hl bytes)) (LineState.run_critExit hl)
  exact { h with
    idle := fun _ => rfl
    flushing := fun hbusy => nomatch hbusy
    line := ⟨_, hrun', rfl, hconf⟩ }

/-- The sequencer keeps the invariant where the bytes it gives do not run past the stream. -/
theorem Inv.seqEmit {s t : State} (h : Inv s) (hb : s.busy = true) {bytes : List Byte}
    (hle : s.pos + bytes.length ≤ 28 * s.nchain) (ht : seqEmit bytes s = .next t) : Inv t := by
  rcases seqEmit_cases bytes s with ⟨-, he⟩ | ⟨-, -, he⟩ | ⟨-, -, -, he⟩ | ⟨-, -, hne, he⟩
  · cases he.symm.trans ht
  · cases he.symm.trans ht
  · cases he.symm.trans ht
    exact h.seqFinish hb bytes
  · cases he.symm.trans ht
    exact h.seqOn hb (Nat.lt_of_le_of_ne hle hne)

/-- Inside a flush `POS` is at a byte of the stream (rule R19). -/
theorem Inv.pos_lt {s : State} (h : Inv s) (hb : s.busy = true) : s.pos < 28 * s.nchain := (h.flushing hb).2.2

/-- A byte step keeps the invariant: `POS` is before the end of the stream (rule R19). -/
theorem Inv.seqByte {s t : State} (h : Inv s) (hb : s.busy = true) (ht : seqByte s = .next t) : Inv t :=
  h.seqEmit (bytes := [frameByte s.cfg s.ch (s.pos / Config.frameBytes) (s.pos % Config.frameBytes)]) hb (h.pos_lt hb) ht

/-- Settles O35: the invariant is kept in each case of a step. A frame starts at a multiple of 28 below `28 x NCHAIN`, so it
ends inside the stream. -/
theorem stepKeepsTheInvariant : Obligations.StepKeepsTheInvariant := by
  intro s t h ht
  rcases step_cases s with ⟨hb, hp, he⟩ | ⟨hb, he⟩ | ⟨-, -, he⟩ | ⟨-, p, rest, e, -, -, he⟩ |
    ⟨-, -, p, rest, -, -, he⟩ | ⟨hb, p, rest, i, -, -, -, hi, he⟩
  · have hpos := h.pos_lt hb
    exact h.seqEmit hb (by rw [frame_length]; omega) (he.symm.trans ht)
  · exact h.seqByte hb (he.symm.trans ht)
  · cases he.symm.trans ht
    exact h
  · cases he.symm.trans ht
    exact (h.withPort rest).respond _ _
  · exact (h.withPort rest).flushStart (he.symm.trans ht)
  · exact (h.withPort rest).exec hb hi (he.symm.trans ht)

/-- Settles O1: the devices have seen nothing and the block is unbuilt and idle. -/
theorem resetStateMeetsTheInvariant : Obligations.ResetStateMeetsTheInvariant where
  canonical := State.reset_ch_wf
  count hv := nomatch hv
  highest hv := nomatch hv
  slots hv := nomatch hv
  configWord hv := nomatch hv
  idle _ := rfl
  flushing hb := nomatch hb
  line := ⟨LineState.initial, rfl, rfl, fun hv => nomatch hv⟩

end Sys2Proof.Machine
end

