-- ==== Sys2Proof/Proofs/Block.lean ====
section
/-! SUPPORT. The block as data: the one form of the channel space, what each operation leaves in the block, the reset table,
and where a read outside the channel space stops the machine. -/

namespace Sys2Proof.Machine

/-! ### The canonical channel space -/

/-- The entries of a canonical memory are its slots that do not read as 0 (rules R11 and R32). -/
theorem Memory.mem_iff_read {m : Memory} (h : m.wf) {i : Nat} {v : Duty} : (i, v) ∈ m ↔ v ≠ 0#16 ∧ m.read i = v := by
  induction m with
  | nil => exact ⟨fun hmem => (nomatch hmem), fun ⟨hv, hzero⟩ => absurd hzero.symm hv⟩
  | cons p m ih =>
    obtain ⟨a, d⟩ := p
    obtain ⟨ha, hm⟩ := List.pairwise_cons.1 h.1
    have hd : d ≠ 0#16 := h.2 (a, d) List.mem_cons_self
    have hrest : (i, v) ∈ m ↔ v ≠ 0#16 ∧ Memory.read m i = v := ih ⟨hm, fun q hq => h.2 q (List.mem_cons_of_mem _ hq)⟩
    rw [List.mem_cons, Prod.mk.injEq, Memory.read_cons]
    by_cases hi : a = i
    · subst hi
      have hnot : (a, v) ∉ m := fun hmem => lt_irrefl a (ha _ hmem)
      simp only [hnot, true_and, or_false, if_true]
      exact ⟨fun hv => ⟨hv ▸ hd, hv.symm⟩, fun hv => hv.2.symm⟩
    · simp [hi, Ne.symm hi, hrest]

/-- Indices that rise strictly are distinct, and so are the entries. -/
theorem Memory.nodup_of_wf {m : Memory} (h : m.wf) : m.Nodup :=
  h.1.imp fun hlt heq => hlt.ne (congrArg Prod.fst heq)

/-- Settles O46: canonical memories with the same reads have the same entries, and both list them in rising order. -/
theorem equalReadsMeanEqualMemories : Obligations.EqualReadsMeanEqualMemories := by
  intro m m' h h' hread
  have hmem : ∀ p : Nat × Duty, p ∈ m ↔ p ∈ m' := fun p => by
    rw [Memory.mem_iff_read h, Memory.mem_iff_read h', hread]
  have hperm : m.Perm m' := (List.perm_ext_iff_of_nodup (Memory.nodup_of_wf h) (Memory.nodup_of_wf h')).2 hmem
  exact hperm.eq_of_pairwise (fun _ _ _ _ hlt hgt => absurd hgt hlt.asymm) h.1 h'.1

/-! ### What an operation leaves in the block -/

/-- A setter writes the buffer alone (rule R84). -/
theorem SetterAnswer.toBlock_eq {chan : Chan} {s t : State} (h : SetterAnswer chan s t) :
    ∃ m, t.toBlock = { s.toBlock with ch := m } := by
  rcases h with ⟨st, -, rfl⟩ | ⟨-, -, v, -, rfl⟩
  · exact ⟨s.ch, rfl⟩
  · exact ⟨s.ch.write chan.toNat v, rfl⟩

/-- BEGIN writes `INIT` alone, and only to set it (rules R18 and R67). -/
theorem execBegin_toBlock {s t : State} (ht : execBegin s = .next t) :
    t.toBlock = s.toBlock ∨ t.toBlock = { s.toBlock with init := true } := by
  rcases execBegin_cases s with ⟨he, -⟩ | ⟨-, -, he⟩
  · cases he.symm.trans ht
    exact .inl rfl
  · cases he.symm.trans ht
    exact .inr rfl

/-- FLUSH in its atomic form leaves the block as it was (rule R93). -/
theorem execFlush_toBlock {s t : State} (ht : execFlush s = .next t) : t.toBlock = s.toBlock := by
  rcases execFlush_cases s with ⟨-, he⟩ | ⟨-, -, -, he⟩ | ⟨-, -, -, he⟩
  · cases he.symm.trans ht
    rfl
  · cases he.symm.trans ht
    rfl
  · cases he.symm.trans ht

/-- The sequencer writes `BUSY` and `POS` alone (rules R97 and R136). -/
theorem seqEmit_toBlock {bytes : List Byte} {s t : State} (ht : seqEmit bytes s = .next t) :
    t.toBlock = { s.toBlock with busy := t.busy, pos := t.pos } := by
  rcases seqEmit_cases bytes s with ⟨-, he⟩ | ⟨-, -, he⟩ | ⟨-, -, -, he⟩ | ⟨-, -, -, he⟩
  · cases he.symm.trans ht
  · cases he.symm.trans ht
  · cases he.symm.trans ht
    rfl
  · cases he.symm.trans ht
    rfl

theorem execWriteFrame_toBlock {v : List Duty} {s t : State} (ht : execWriteFrame v s = .next t) :
    t.toBlock = { s.toBlock with busy := t.busy, pos := t.pos } := by
  rcases execWriteFrame_cases v s with ⟨-, he⟩ | ⟨-, he⟩
  · exact seqEmit_toBlock (he.symm.trans ht)
  · cases he.symm.trans ht

/-- Settles O44: of the items of the block a setter writes the buffer, BEGIN sets `INIT`, FLUSH writes none, and a frame writes
the sequencer's two. -/
theorem onlyResetWritesControlRegisters : Obligations.OnlyResetWritesControlRegisters := by
  intro i s t hi ht
  cases i with
  | construct n => exact absurd rfl (hi n)
  | begin => rcases execBegin_toBlock ht with hb | hb <;> simp [hb]
  | setpct chan arg =>
    obtain ⟨_, ha⟩ := SetterAnswer.of_exec rfl ht
    obtain ⟨m, hb⟩ := ha.toBlock_eq
    simp [hb, Instr.isSetter]
  | setpwm chan val =>
    obtain ⟨_, ha⟩ := SetterAnswer.of_exec rfl ht
    obtain ⟨m, hb⟩ := ha.toBlock_eq
    simp [hb, Instr.isSetter]
  | flush => simp [execFlush_toBlock ht]
  | writeFrame v =>
    rw [execWriteFrame_toBlock ht]
    exact ⟨rfl, rfl, rfl, rfl, id, fun _ => rfl⟩

/-! ### The reset table -/

/-- CONSTRUCT takes the configuration word it is given, where the count is admitted (rule R17). -/
theorem constructWith_cfg (c : BitVec 32) {n : BitVec 13} (s : State) (hn1 : 1 ≤ n.toNat) (hn : n.toNat ≤ 5461) :
    (constructWith c n s).cfg = c := by
  have hadmitted : ¬ (n.toNat < 1 ∨ Config.nmax < n.toNat) := by
    simp only [Config.nmax]
    omega
  rw [constructWith, if_neg hadmitted]
  rfl

/-- An index above `MAXCH` is no slot (rule R31). -/
theorem State.memRead_of_maxch_lt {s : State} {i : Nat} (h : s.maxch.toNat < i) : s.memRead i = none := by
  simp [State.memRead, State.mapped, Nat.not_le.2 h]

/-- Settles O3: an admitted CONSTRUCT leaves the table of rule R24, whose last slot is `MAXCH = 12 x n - 1`. -/
theorem constructLeavesTheResetTable : Obligations.ConstructLeavesTheResetTable := by
  intro n s hn1 hn
  rcases execConstruct_cases n s with ⟨hbad, -⟩ | ⟨-, -, he⟩
  · omega
  · have hmax := maxch_toNat hn
    refine ⟨fun c => constructWith_cfg c s hn1 hn, _, he, rfl, rfl, hmax, rfl, rfl, fun i hi => ?_, fun i hi => ?_,
      rfl, rfl, rfl, rfl, rfl, rfl⟩
    · exact State.memRead_of_mapped rfl (hmax.ge.trans' (by omega))
    · exact State.memRead_of_maxch_lt (hmax.trans_lt (by omega))

/-! ### Stops -/

/-- The slots of the ICs are not all in the channel space of an unbuilt block, or of one whose `MAXCH` is too low. -/
theorem State.bufferMapped_eq_false {s : State} (h : s.valid = false ∨ s.maxch.toNat + 1 < 12 * s.nchain) :
    s.bufferMapped = false := by
  refine Bool.eq_false_iff.2 fun hm => ?_
  obtain ⟨hv, hle⟩ := State.bufferMapped_iff.1 hm
  rcases h with h | h
  · exact absurd hv (by simp [h])
  · omega

/-- At a frame boundary of a flush in progress WRITE_FRAME of the IC whose turn it is runs the sequencer (assumption 3). -/
theorem exec_writeFrame_due {s : State} {k : Nat} (hb : s.busy = true) (hp : s.pos = 28 * k) :
    exec (.writeFrame (icSlots s.ch k)) s = seqEmit (frame s.cfg s.ch k) s := by
  have hdue : frameDue (icSlots s.ch k) s = true := by
    have hk : s.pos / 28 = k := by omega
    exact frameDue_iff.2 ⟨hb, by omega, by rw [hk]⟩
  exact if_pos hdue

/-- Settles O22: each stop is the case of FLUSH or of the sequencer that the hypotheses leave. -/
theorem readsOutsideTheChannelSpaceStop : Obligations.ReadsOutsideTheChannelSpaceStop := by
  refine ⟨fun s hv hi hlt => ?_, fun s k hb hp hk hbad => ?_, fun s k hb hp hk => ?_⟩
  · have hunmapped : s.bufferMapped = false := State.bufferMapped_eq_false (.inr hlt)
    rcases execFlush_cases s with ⟨hnot, -⟩ | ⟨-, -, hm, -⟩ | ⟨-, -, -, he⟩
    · simp [hv, hi] at hnot
    · exact absurd hm (by simp [hunmapped])
    · exact he
  · have hunmapped : s.bufferMapped = false := State.bufferMapped_eq_false hbad
    refine (exec_writeFrame_due hb hp).trans ?_
    rcases seqEmit_cases (frame s.cfg s.ch k) s with ⟨hend, -⟩ | ⟨-, -, he⟩ | ⟨-, hm, -⟩ | ⟨-, hm, -⟩
    · omega
    · exact he
    · exact absurd hm (by simp [hunmapped])
    · exact absurd hm (by simp [hunmapped])
  · refine (exec_writeFrame_due hb hp).trans ?_
    rcases seqEmit_cases (frame s.cfg s.ch k) s with ⟨-, he⟩ | ⟨hin, -⟩ | ⟨hin, -⟩ | ⟨hin, -⟩
    · exact he
    · omega
    · omega
    · omega

end Sys2Proof.Machine
end

