-- ==== Sys2Proof/Proofs/Progress.lean ====
section
/-! SUPPORT. Progress: from a state that meets the invariant every operation of the port, every sequencer step and so every
step answers a next state. -/

namespace Sys2Proof.Machine

/-- Inside a flush `POS` is at a byte of the stream and the slots are mapped, so the sequencer answers (rules R19 and R31). -/
theorem seqEmit_answers_of_inv {s : State} (h : Inv s) (hb : s.busy = true) (bytes : List Byte) :
    ∃ t, seqEmit bytes s = .next t :=
  ⟨_, seqEmit_eq (h.pos_lt hb) (h.bufferMapped (h.flushing hb).1)⟩

/-- The start of a refined flush reads no slot and always answers (rule R97). -/
theorem flushStart_answers (s : State) : ∃ t, flushStart s = .next t := by
  rcases flushStart_cases s with ⟨-, he⟩ | ⟨-, -, he⟩ | ⟨-, -, -, he⟩
  · exact ⟨_, he⟩
  · exact ⟨_, he⟩
  · exact ⟨_, he⟩

theorem execBegin_answers (s : State) : ∃ t, execBegin s = .next t := by
  rcases execBegin_cases s with ⟨he, -⟩ | ⟨-, -, he⟩
  · exact ⟨_, he⟩
  · exact ⟨_, he⟩

/-- FLUSH stops only where a slot is not mapped, which the invariant excludes on a built block (rules R21 and R31). -/
theorem execFlush_answers_of_inv {s : State} (h : Inv s) : ∃ t, execFlush s = .next t := by
  rcases execFlush_cases s with ⟨-, he⟩ | ⟨-, -, -, he⟩ | ⟨hv, -, hunmapped, -⟩
  · exact ⟨_, he⟩
  · exact ⟨_, he⟩
  · exact absurd (h.bufferMapped hv) (by simp [hunmapped])

/-- Every operation a word of the port can stand for answers (rule R111). -/
theorem exec_answers_of_inv {i : Instr} {s : State} (h : Inv s) (hi : ∀ v, i ≠ .writeFrame v) : ∃ t, exec i s = .next t := by
  cases i with
  | construct n => exact ⟨_, rfl⟩
  | begin => exact execBegin_answers s
  | setpct chan arg => exact (execSetpct_answer chan arg s).imp fun _ ha => ha.1
  | setpwm chan val => exact (execSetpwm_answer chan val s).imp fun _ ha => ha.1
  | flush => exact execFlush_answers_of_inv h
  | writeFrame v => exact absurd rfl (hi v)

/-- Progress: a step from a state that meets the invariant neither faults nor is refused (rules R31 and R98). -/
theorem step_answers_of_inv {s : State} (h : Inv s) : ∃ t, step s = .next t := by
  rcases step_cases s with ⟨hb, -, he⟩ | ⟨hb, he⟩ | ⟨-, -, he⟩ | ⟨-, p, rest, e, -, -, he⟩ |
    ⟨-, -, p, rest, -, -, he⟩ | ⟨-, p, rest, i, -, -, -, hi, he⟩
  · exact he ▸ seqEmit_answers_of_inv h hb _
  · exact he ▸ seqEmit_answers_of_inv h hb _
  · exact ⟨_, he⟩
  · exact ⟨_, he⟩
  · exact he ▸ flushStart_answers _
  · exact he ▸ exec_answers_of_inv (h.withPort rest) hi

/-- Settles O36, by induction on the number of steps: the first step answers, and its state meets the invariant again. -/
theorem legalRunsAreSafe : Obligations.LegalRunsAreSafe := by
  intro s h n
  induction n generalizing s with
  | zero => exact ⟨s, run_zero s⟩
  | succ n ih =>
    obtain ⟨t, ht⟩ := step_answers_of_inv h
    obtain ⟨u, hu⟩ := ih t (stepKeepsTheInvariant s t h ht)
    exact ⟨u, (run_next ht).trans hu⟩

end Sys2Proof.Machine
end

