-- ==== Sys2Proof/Proofs/Events.lean ====
section
/-! SUPPORT. What each operation adds to the events. -/

namespace Sys2Proof.Machine

/-- CONSTRUCT, admitted or rejected, emits nothing (rule R65). -/
theorem execConstruct_events {n : BitVec 13} {s t : State} (ht : execConstruct n s = .next t) : t.events = s.events := by
  rcases execConstruct_cases n s with ⟨-, he⟩ | ⟨-, -, he⟩
  · cases he.symm.trans ht
    rfl
  · cases he.symm.trans ht
    rfl

/-- BEGIN emits nothing, or the one `TConfig` (rules R67 and R69). -/
theorem execBegin_events {s t : State} (ht : execBegin s = .next t) :
    t.events = s.events ∨ t.events = s.events ++ [.tConfig Config.tcfg] := by
  rcases execBegin_cases s with ⟨he, -⟩ | ⟨-, -, he⟩
  · cases he.symm.trans ht
    exact .inl rfl
  · cases he.symm.trans ht
    exact .inr rfl

/-- A setter emits nothing (rules R75 and R85). -/
theorem SetterAnswer.events_eq {chan : Chan} {s t : State} (h : SetterAnswer chan s t) : t.events = s.events := by
  rcases h with ⟨st, -, rfl⟩ | ⟨-, -, v, -, rfl⟩
  · rfl
  · rfl

/-- FLUSH emits nothing, or its one critical section (rules R93 and R95). -/
theorem execFlush_events {s t : State} (ht : execFlush s = .next t) :
    t.events = s.events ∨ t.events = s.events ++ flushEvents s := by
  rcases execFlush_cases s with ⟨-, he⟩ | ⟨-, -, -, he⟩ | ⟨-, -, -, he⟩
  · cases he.symm.trans ht
    exact .inl rfl
  · cases he.symm.trans ht
    exact .inr rfl
  · cases he.symm.trans ht

/-- The sequencer emits its bytes, and after the last of the stream the end of the critical section (rule R97). -/
theorem seqEmit_events {bytes : List Byte} {s t : State} (ht : seqEmit bytes s = .next t) :
    t.events = s.events ++ bytes.map .tx ∨ t.events = s.events ++ (bytes.map .tx ++ [.critExit]) := by
  rcases seqEmit_cases bytes s with ⟨-, he⟩ | ⟨-, -, he⟩ | ⟨-, -, -, he⟩ | ⟨-, -, -, he⟩
  · cases he.symm.trans ht
  · cases he.symm.trans ht
  · cases he.symm.trans ht
    exact .inr (List.append_assoc _ _ _)
  · cases he.symm.trans ht
    exact .inl rfl

/-- A frame that completes was due in a flush in progress, and is the sequencer's (assumption 3). -/
theorem execWriteFrame_due {v : List Duty} {s t : State} (ht : execWriteFrame v s = .next t) :
    s.busy = true ∧ seqEmit (frameOf s.cfg v) s = .next t := by
  rcases execWriteFrame_cases v s with ⟨hdue, he⟩ | ⟨-, he⟩
  · exact ⟨(frameDue_iff.1 hdue).1, he.symm.trans ht⟩
  · cases he.symm.trans ht

/-- Settles O45, operation by operation: CONSTRUCT and the setters add nothing, BEGIN at most the `TConfig`, and the other two
are the flush. -/
theorem onlyAFlushTransmits : Obligations.OnlyAFlushTransmits := by
  intro i s t ht
  have hquiet (he : t.events = s.events) : t.events = s.events ++ [] := he.trans (List.append_nil _).symm
  cases i with
  | construct n => exact ⟨[], hquiet (execConstruct_events ht), .inr (.inr (.inr rfl))⟩
  | begin =>
    rcases execBegin_events ht with he | he
    · exact ⟨[], hquiet he, .inr (.inr (.inr rfl))⟩
    · exact ⟨_, he, .inr (.inr (.inl ⟨rfl, rfl⟩))⟩
  | setpct chan arg =>
    obtain ⟨_, ha⟩ := SetterAnswer.of_exec rfl ht
    exact ⟨[], hquiet ha.events_eq, .inr (.inr (.inr rfl))⟩
  | setpwm chan val =>
    obtain ⟨_, ha⟩ := SetterAnswer.of_exec rfl ht
    exact ⟨[], hquiet ha.events_eq, .inr (.inr (.inr rfl))⟩
  | flush =>
    rcases execFlush_events ht with he | he
    · exact ⟨[], hquiet he, .inl rfl⟩
    · exact ⟨_, he, .inl rfl⟩
  | writeFrame v =>
    obtain ⟨hb, hseq⟩ := execWriteFrame_due ht
    rcases seqEmit_events hseq with he | he
    · exact ⟨_, he, .inr (.inl ⟨v, rfl, hb⟩)⟩
    · exact ⟨_, he, .inr (.inl ⟨v, rfl, hb⟩)⟩

end Sys2Proof.Machine
end

