-- ==== Sys2Proof/Proofs/Wire.lean ====
section
/-! SUPPORT. The bytes of the stream by number, and what setters, BEGIN and FLUSH make of a block just constructed. -/

namespace Sys2Proof.Machine

/-! ### The bytes of the stream -/

/-- Byte `q` of the stream is byte `q mod 28` of the frame of IC `q div 28` (rules R47 and R49). -/
theorem stream_getElem? (cfg : BitVec 32) (m : Memory) {n q : Nat} (hq : q < 28 * n) :
    (stream cfg m n)[q]? = some (frameByte cfg m (q / 28) (q % 28)) := by
  induction n with
  | zero => omega
  | succ n ih =>
    rw [stream_succ]
    by_cases hlt : q < 28 * n
    · rw [List.getElem?_append_left (by simpa using hlt), ih hlt]
    · have hdiv : q / 28 = n := by omega
      have hmod : q - 28 * n = q % 28 := by omega
      rw [List.getElem?_append_right (by simpa using hlt), stream_length, hmod, hdiv, frame_eq_map, List.getElem?_map,
        List.getElem?_range (Nat.mod_lt _ (by decide)), Option.map_some]

/-- Byte `r` of the frame of IC `k` in the stream (rule R49). -/
theorem stream_getElem?_frame (cfg : BitVec 32) (m : Memory) {n k r : Nat} (hk : k < n) (hr : r < 28) :
    (stream cfg m n)[28 * k + r]? = some (frameByte cfg m k r) := by
  have hdiv : (28 * k + r) / 28 = k := by omega
  have hmod : (28 * k + r) % 28 = r := by omega
  rw [stream_getElem? cfg m (by omega), hdiv, hmod]

/-- The high byte of local channel `j` in its frame (rule R47). -/
theorem frameByte_high (cfg : BitVec 32) (m : Memory) (k : Nat) {j : Nat} (hj : j < 12) :
    frameByte cfg m k (4 + 2 * (11 - j)) = (m.read (12 * k + j)).extractLsb' 8 8 := by
  have heven : (4 + 2 * (11 - j) - 4) % 2 = 0 := by omega
  have hchan : 11 - (4 + 2 * (11 - j) - 4) / 2 = j := by omega
  rw [frameByte, if_neg (by omega), if_pos heven, hchan]
  rfl

/-- The low byte of local channel `j` in its frame (rule R47). -/
theorem frameByte_low (cfg : BitVec 32) (m : Memory) (k : Nat) {j : Nat} (hj : j < 12) :
    frameByte cfg m k (5 + 2 * (11 - j)) = (m.read (12 * k + j)).extractLsb' 0 8 := by
  have hodd : ¬ (5 + 2 * (11 - j) - 4) % 2 = 0 := by omega
  have hchan : 11 - (5 + 2 * (11 - j) - 4) / 2 = j := by omega
  rw [frameByte, if_neg (by omega), if_neg hodd, hchan]
  rfl

/-- The place of the two bytes of local channel `j` of IC `k` in the stream (rules R47 and R49). -/
theorem stream_getElem?_channel (cfg : BitVec 32) (m : Memory) {n k j : Nat} (hk : k < n) (hj : j < 12) :
    (stream cfg m n)[28 * k + 4 + 2 * (11 - j)]? = some ((m.read (12 * k + j)).extractLsb' 8 8) ∧
    (stream cfg m n)[28 * k + 5 + 2 * (11 - j)]? = some ((m.read (12 * k + j)).extractLsb' 0 8) := by
  constructor
  · rw [Nat.add_assoc, stream_getElem?_frame cfg m hk (by omega), frameByte_high cfg m k hj]
  · rw [Nat.add_assoc, stream_getElem?_frame cfg m hk (by omega), frameByte_low cfg m k hj]

/-! ### Operations one after the other -/

theorem execAll_cons {i : Instr} {is : List Instr} {s t : State} (h : exec i s = .next t) :
    execAll (i :: is) s = execAll is t := by
  rw [execAll, h]

theorem execAll_append {is js : List Instr} {s t : State} (h : execAll is s = .next t) :
    execAll (is ++ js) s = execAll js t := by
  induction is generalizing s with
  | nil =>
    cases h
    rfl
  | cons i is ih =>
    cases hi : exec i s with
    | next u =>
      rw [List.cons_append, execAll_cons hi]
      exact ih ((execAll_cons hi).symm.trans h)
    | fault r => simp [execAll, hi] at h
    | refused r => simp [execAll, hi] at h

/-! ### From construction to the wire -/

/-- What a list of setter operands makes of `s`: the buffer alone is written, and a slot of the channel space holds the value
last set, or what it held (rule R38 (a)). -/
structure HoldsLastSet (ws : List (Chan × Duty)) (s t : State) : Prop where
  block     : t.toBlock = { s.toBlock with ch := t.ch }
  canonical : t.ch.wf
  read      : ∀ i, i ≤ s.maxch.toNat → t.ch.read i = lastSet (s.ch.read i) i ws

theorem HoldsLastSet.valid_eq {ws : List (Chan × Duty)} {s t : State} (h : HoldsLastSet ws s t) : t.valid = s.valid := by
  rw [h.block]

theorem HoldsLastSet.nchain_eq {ws : List (Chan × Duty)} {s t : State} (h : HoldsLastSet ws s t) :
    t.nchain = s.nchain := by
  rw [h.block]

theorem HoldsLastSet.maxch_eq {ws : List (Chan × Duty)} {s t : State} (h : HoldsLastSet ws s t) : t.maxch = s.maxch := by
  rw [h.block]

theorem HoldsLastSet.init_eq {ws : List (Chan × Duty)} {s t : State} (h : HoldsLastSet ws s t) : t.init = s.init := by
  rw [h.block]

/-- One SETPWM on a built block, written or refused: a channel out of range names no slot, and a refused value is the one
held (rules R80 to R82). -/
theorem execSetpwm_holdsLastSet (chan : Chan) (val : Duty) {s : State} (hv : s.valid = true) (hwf : s.ch.wf) :
    ∃ t, exec (.setpwm chan val) s = .next t ∧ HoldsLastSet [(chan, val)] s t := by
  have hexec : exec (.setpwm chan val) s = setpwmCore chan val s := execSetpwm_built hv
  rcases setpwmCore_cases chan val s with ⟨hlt, he⟩ | ⟨-, hsame, he⟩ | ⟨-, -, he⟩
  · refine ⟨_, hexec.trans he, rfl, hwf, fun i hi => ?_⟩
    have hne : chan.toNat ≠ i := (hi.trans_lt hlt).ne'
    simp [lastSet, hne]
  · refine ⟨_, hexec.trans he, rfl, hwf, fun i _ => ?_⟩
    by_cases hi : chan.toNat = i
    · simp [lastSet, hi, ← hsame]
    · simp [lastSet, hi]
  · refine ⟨_, hexec.trans he, rfl, Memory.wf_write hwf _ _, fun i _ => ?_⟩
    simp [lastSet, Memory.read_write hwf.1, eq_comm]

/-- A list of SETPWM on a built block. -/
theorem execAll_setpwm_holdsLastSet (ws : List (Chan × Duty)) {s : State} (hv : s.valid = true) (hwf : s.ch.wf) :
    ∃ t, execAll (ws.map fun w => .setpwm w.1 w.2) s = .next t ∧ HoldsLastSet ws s t := by
  induction ws generalizing s with
  | nil => exact ⟨s, rfl, rfl, hwf, fun _ _ => rfl⟩
  | cons w ws ih =>
    obtain ⟨t, ht, hfirst⟩ := execSetpwm_holdsLastSet w.1 w.2 hv hwf
    obtain ⟨u, hu, hrest⟩ := ih (hfirst.valid_eq.trans hv) hfirst.canonical
    refine ⟨u, (execAll_cons ht).trans hu, ?_, hrest.canonical, fun i hi => ?_⟩
    · rw [hrest.block, hfirst.block]
    · rw [hrest.read i (hfirst.maxch_eq ▸ hi), hfirst.read i hi]
      rfl

/-- BEGIN on a built block not yet initialised (rule R67). -/
theorem execBegin_configures {s : State} (hv : s.valid = true) (hi : s.init = false) :
    execBegin s = .next ({ s.emit [.tConfig Config.tcfg] with init := true }.respond false .ok) := by
  simp [execBegin, hv, hi]

/-- FLUSH on a ready block whose slots are mapped (rule R93). -/
theorem execFlush_performs {s : State} (hv : s.valid = true) (hi : s.init = true) (hm : s.bufferMapped = true) :
    execFlush s = .next ((s.emit (flushEvents s)).respond false .ok) := by
  simp [execFlush, hv, hi, hm]

/-- An admitted CONSTRUCT from any state (rules R24 and R65). -/
theorem exec_construct_admitted {n : BitVec 13} (s : State) (hn1 : 1 ≤ n.toNat) (hn : n.toNat ≤ 5461) :
    ∃ c, exec (.construct n) s = .next c ∧
      c.toBlock = ⟨true, n.toNat, BitVec.ofNat 16 (12 * n.toNat - 1), Config.cfgWord, false, [], false, 0⟩ := by
  rcases execConstruct_cases n s with ⟨hbad, -⟩ | ⟨-, -, he⟩
  · omega
  · exact ⟨_, he, rfl⟩

/-- CONSTRUCT, a list of SETPWM and BEGIN leave a ready block of that many ICs, each slot with the value last set, or the
reset value 0 (rules R24, R38 (a) and R65). -/
theorem execAll_construct_setpwm_begin {n : BitVec 13} (ws : List (Chan × Duty)) (s : State) (hn1 : 1 ≤ n.toNat)
    (hn : n.toNat ≤ 5461) :
    ∃ u, execAll (.construct n :: (ws.map fun w => .setpwm w.1 w.2) ++ [.begin]) s = .next u ∧
      u.valid = true ∧ u.init = true ∧ u.nchain = n.toNat ∧ u.bufferMapped = true ∧
      ∀ i, i < 12 * n.toNat → u.ch.read i = lastSet 0#16 i ws := by
  obtain ⟨c, hconstruct, hblock⟩ := exec_construct_admitted s hn1 hn
  have hmax : c.maxch.toNat = 12 * n.toNat - 1 := by rw [hblock, maxch_toNat hn]
  have hempty : c.ch = [] := by rw [hblock]
  obtain ⟨t, hset, hlast⟩ :=
    execAll_setpwm_holdsLastSet ws (s := c) (by rw [hblock]) (by rw [hempty]; exact Memory.wf_nil)
  have hv : t.valid = true := by rw [hlast.valid_eq, hblock]
  have hi : t.init = false := by rw [hlast.init_eq, hblock]
  have hnchain : t.nchain = n.toNat := by rw [hlast.nchain_eq, hblock]
  have hmapped : t.bufferMapped = true := by
    refine State.bufferMapped_iff.2 ⟨hv, ?_⟩
    rw [hnchain, hlast.maxch_eq, hmax]
    omega
  refine ⟨{ t.emit [.tConfig Config.tcfg] with init := true }.respond false .ok, ?run, hv, rfl, hnchain, hmapped,
    fun i hi => ?slot⟩
  case run =>
    rw [List.cons_append, execAll_cons hconstruct, execAll_append hset]
    exact execAll_cons (execBegin_configures hv hi)
  case slot =>
    refine (hlast.read i (by omega)).trans ?_
    rw [hempty, Memory.read_nil]

/-- Settles O25: the flush sends the stream of the buffer, which holds the values last set. -/
theorem flushSendsTheLastValuesSet : Obligations.FlushSendsTheLastValuesSet := by
  intro n ws s hn1 hn
  obtain ⟨u, hu, hv, hi, hnchain, hm, hread⟩ := execAll_construct_setpwm_begin ws s hn1 hn
  have hbytes : txBytes (flushEvents u) = stream u.cfg u.ch n.toNat := by rw [txBytes_flushEvents, hnchain]
  refine ⟨u, _, flushEvents u, hu, execFlush_performs hv hi hm, rfl, by rw [hbytes, stream_length], fun k j hk hj => ?_⟩
  rw [hbytes, ← hread (12 * k + j) (by omega)]
  exact stream_getElem?_channel u.cfg u.ch hk hj

end Sys2Proof.Machine
end

