-- ==== Sys2Proof/Proofs/Encoding.lean ====
section
/-! SUPPORT. The meanings of a command word by its fields, the 224-bit word of a frame, and the round trips of the encoding. -/

namespace Sys2Proof

/-! ### Command words -/

/-- Every meaning a command word can have, by its fields (rules R52 and R56). -/
theorem decodeCmd_cases (w : BitVec 51) :
    (cmdOp w = 0b000#3 ∧ cmdRest w = 0#48 ∧ decodeCmd w = .ok .begin) ∨
    (cmdOp w = 0b000#3 ∧ cmdRest w ≠ 0#48 ∧ decodeCmd w = .error .beginReserved) ∨
    (cmdOp w = 0b001#3 ∧ decodeCmd w = .ok (.setpct (cmdChan w) (cmdArg w))) ∨
    (cmdOp w = 0b010#3 ∧ cmdArgHi w = 0#16 ∧ decodeCmd w = .ok (.setpwm (cmdChan w) (cmdVal w))) ∨
    (cmdOp w = 0b010#3 ∧ cmdArgHi w ≠ 0#16 ∧ decodeCmd w = .error .setpwmReserved) ∨
    (cmdOp w = 0b011#3 ∧ cmdRest w = 0#48 ∧ decodeCmd w = .ok .flush) ∨
    (cmdOp w = 0b011#3 ∧ cmdRest w ≠ 0#48 ∧ decodeCmd w = .error .flushReserved) ∨
    (4 ≤ (cmdOp w).toNat ∧ decodeCmd w = .error (.reservedOp (cmdOp w))) := by
  have hop : cmdOp w = 0b000#3 ∨ cmdOp w = 0b001#3 ∨ cmdOp w = 0b010#3 ∨ cmdOp w = 0b011#3 ∨ 4 ≤ (cmdOp w).toNat := by
    generalize cmdOp w = op
    revert op
    decide
  rcases hop with h | h | h | h | h
  · by_cases hr : cmdRest w = 0#48 <;> simp [decodeCmd, h, hr]
  · simp [decodeCmd, h]
  · by_cases hr : cmdArgHi w = 0#16 <;> simp [decodeCmd, h, hr]
  · by_cases hr : cmdRest w = 0#48 <;> simp [decodeCmd, h, hr]
  · have hne : ∀ k : BitVec 3, k.toNat < 4 → cmdOp w ≠ k := fun k hk he => by rw [he] at h; omega
    simp [decodeCmd, h, hne 0b000#3 (by decide), hne 0b001#3 (by decide), hne 0b010#3 (by decide),
      hne 0b011#3 (by decide)]

theorem cmdRest_eq_zero_iff {w : BitVec 51} : cmdRest w = 0#48 ↔ cmdChan w = 0#16 ∧ cmdArg w = 0#32 := by
  simp only [← BitVec.toNat_inj, cmdRest_toNat, cmdChan_toNat, cmdArg_toNat, BitVec.toNat_ofNat]
  omega

/-- Where its upper half is 0 an `arg` field is its lower half (rule R51). -/
theorem cmdArgHi_eq_zero_iff {w : BitVec 51} : cmdArgHi w = 0#16 ↔ cmdArg w = (cmdVal w).setWidth 32 := by
  simp only [← BitVec.toNat_inj, cmdArgHi_toNat, cmdArg_toNat, BitVec.toNat_setWidth, cmdVal_toNat, BitVec.toNat_ofNat]
  omega

/-- A command word is the one its three fields make. -/
theorem cmdWord_eq_of_fields {w : BitVec 51} {op : BitVec 3} {c : Chan} {a : BitVec 32} (ho : cmdOp w = op)
    (hc : cmdChan w = c) (ha : cmdArg w = a) : cmdWord op c a = w := by
  rw [← ho, ← hc, ← ha, cmdWord_fields]

/-- A command word that decodes is the encoding of what it decodes to. -/
theorem encode_of_decodeCmd {w : BitVec 51} {i : Instr} (h : decodeCmd w = .ok i) :
    encode i = .cmd51 w ∧ i.wellFormed = true := by
  rcases decodeCmd_cases w with ⟨ho, hr, he⟩ | ⟨-, -, he⟩ | ⟨ho, he⟩ | ⟨ho, hr, he⟩ | ⟨-, -, he⟩ | ⟨ho, hr, he⟩ |
    ⟨-, -, he⟩ | ⟨-, he⟩ <;> cases he.symm.trans h
  · obtain ⟨hc, ha⟩ := cmdRest_eq_zero_iff.1 hr
    exact ⟨congrArg _ (cmdWord_eq_of_fields ho hc ha), rfl⟩
  · exact ⟨congrArg _ (cmdWord_eq_of_fields ho rfl rfl), rfl⟩
  · exact ⟨congrArg _ (cmdWord_eq_of_fields ho rfl (cmdArgHi_eq_zero_iff.1 hr)), rfl⟩
  · obtain ⟨hc, ha⟩ := cmdRest_eq_zero_iff.1 hr
    exact ⟨congrArg _ (cmdWord_eq_of_fields ho hc ha), rfl⟩

theorem decodeCmd_setpct (chan : Chan) (arg : BitVec 32) :
    decodeCmd (cmdWord 0b001#3 chan arg) = .ok (.setpct chan arg) := by
  simp [decodeCmd, cmdOp_cmdWord, cmdChan_cmdWord, cmdArg_cmdWord]

theorem decodeCmd_setpwm (chan : Chan) (val : Duty) :
    decodeCmd (cmdWord 0b010#3 chan (val.setWidth 32)) = .ok (.setpwm chan val) := by
  have harg : cmdArg (cmdWord 0b010#3 chan (val.setWidth 32)) = val.setWidth 32 := cmdArg_cmdWord _ _ _
  have hval : cmdVal (cmdWord 0b010#3 chan (val.setWidth 32)) = val := by
    have hnum := congrArg BitVec.toNat harg
    rw [cmdArg_toNat, BitVec.toNat_setWidth] at hnum
    apply BitVec.eq_of_toNat_eq
    rw [cmdVal_toNat]
    omega
  have hhi : cmdArgHi (cmdWord 0b010#3 chan (val.setWidth 32)) = 0#16 := by
    rw [cmdArgHi_eq_zero_iff, harg, hval]
  simp [decodeCmd, cmdOp_cmdWord, cmdChan_cmdWord, hhi, hval]

/-! ### The 224-bit word of a frame -/

/-- The header of the word of a frame (rule R48). -/
theorem wireWord_header {v : List Duty} (hv : v.length = 12) : (wireWord v).extractLsb' 192 32 = Config.cfgWord := by
  apply BitVec.eq_of_getLsbD_eq
  intro i hi
  rw [BitVec.getLsbD_extractLsb', wireWord_bit v _ (by omega), hv, if_neg (by omega)]
  simp [hi]

/-- The channels of the word of a frame (rule R48). -/
theorem wireChannel_wireWord {v : List Duty} (hv : v.length = 12) {j : Nat} (hj : j < 12) :
    wireChannel (wireWord v) j = v.getD j 0#16 := by
  apply BitVec.eq_of_getLsbD_eq
  intro i hi
  have hdiv : (16 * j + i) / 16 = j := by omega
  have hmod : (16 * j + i) % 16 = i := by omega
  rw [wireChannel, BitVec.getLsbD_extractLsb', wireWord_bit v _ (by omega), hv, if_pos (by omega), hdiv, hmod]
  simp [hi]

theorem decodeWire_wireWord {v : List Duty} (hv : v.length = 12) : decodeWire (wireWord v) = .ok (.writeFrame v) := by
  have hchannels : (List.range Config.nch).map (wireChannel (wireWord v)) = v := by
    refine List.ext_getElem (by simp [Config.nch, hv]) fun j hj hj' => ?_
    rw [List.getElem_map, List.getElem_range, wireChannel_wireWord hv (hv ▸ hj'), List.getD_eq_getElem _ _ hj']
  rw [decodeWire, if_pos (wireWord_header hv), hchannels]

/-- A 224-bit word under the header is the word of its channels (rule R48). -/
theorem wireWord_wireChannel {w : BitVec 224} (h : w.extractLsb' 192 32 = Config.cfgWord) :
    wireWord ((List.range Config.nch).map (wireChannel w)) = w := by
  have hlen : ((List.range Config.nch).map (wireChannel w)).length = 12 := by simp [Config.nch]
  apply BitVec.eq_of_getLsbD_eq
  intro i hi
  rw [wireWord_bit _ i hi, hlen]
  split
  · next hlt =>
    have hj : i / 16 < Config.nch := by simp only [Config.nch]; omega
    have hbit : 16 * (i / 16) + i % 16 = i := by omega
    rw [List.getD_eq_getElem _ _ (by simpa using hj), List.getElem_map, List.getElem_range, wireChannel,
      BitVec.getLsbD_extractLsb', hbit]
    simp [Nat.mod_lt]
  · next hge =>
    have hbit : 192 + (i - 16 * 12) = i := by omega
    have hin : i - 16 * 12 < 32 := by omega
    rw [← h, BitVec.getLsbD_extractLsb', hbit, decide_eq_true hin, Bool.true_and]

/-- A frame word that decodes is the encoding of what it decodes to. -/
theorem encode_of_decodeWire {w : BitVec 224} {i : Instr} (h : decodeWire w = .ok i) :
    encode i = .wire224 w ∧ i.wellFormed = true := by
  rw [decodeWire] at h
  split at h
  · next hheader =>
    cases h
    exact ⟨congrArg _ (wireWord_wireChannel hheader), by simp [Instr.wellFormed]⟩
  · cases h

/-! ### The round trips -/

/-- Settles O30, by the rows: BEGIN, FLUSH and CONSTRUCT are fixed words or a number, the setters have their fields, and a frame
its header and channels. -/
theorem decodeUndoesEncode : Obligations.DecodeUndoesEncode := by
  intro i hi
  cases i with
  | construct n => rfl
  | begin => decide
  | setpct chan arg => exact decodeCmd_setpct chan arg
  | setpwm chan val => exact decodeCmd_setpwm chan val
  | flush => decide
  | writeFrame v => exact decodeWire_wireWord (eq_of_beq hi)

/-- Settles O31, format by format. -/
theorem encodeUndoesDecode : Obligations.EncodeUndoesDecode := by
  intro c i h
  cases c with
  | rst13 n =>
    cases h
    exact ⟨rfl, rfl⟩
  | cmd51 w => exact encode_of_decodeCmd h
  | wire224 w => exact encode_of_decodeWire h

/-- Settles O32, each word by evaluation. -/
theorem specWordsDecodeAsNamed : Obligations.SpecWordsDecodeAsNamed := by
  unfold Obligations.SpecWordsDecodeAsNamed
  decide

end Sys2Proof
end

