-- ==== Sys2Proof/Proofs/OpcodeMap.lean ====
section
/-! SUPPORT. The opcode map of rule R52 against the decoder, and the illegal words. -/

namespace Sys2Proof

open Machine

/-! ### The rows of the map -/

theorem cmdOp_and (w m : BitVec 51) : cmdOp (w &&& m) = cmdOp w &&& cmdOp m := BitVec.extractLsb'_and

theorem cmdRest_and (w m : BitVec 51) : cmdRest (w &&& m) = cmdRest w &&& cmdRest m := BitVec.extractLsb'_and

/-- A row masks all of `op`, so a word it selects has the `op` of its pattern (rule R52). -/
theorem OpcodeRow.cmdOp_of_selects {r : OpcodeRow} (hr : r ∈ opcodeMap) {w : BitVec 51} (h : r.selects w = true) :
    cmdOp w = cmdOp r.pattern := by
  have hmask : ∀ r ∈ opcodeMap, cmdOp r.mask = 0b111#3 := by decide
  rw [← eq_of_beq h, cmdOp_and, hmask r hr]
  exact BitVec.and_allOnes.symm

/-- No word selects two rows: the patterns of the map differ in `op` (rule R55). -/
theorem OpcodeRow.eq_of_selects {r r' : OpcodeRow} (hr : r ∈ opcodeMap) (hr' : r' ∈ opcodeMap) {w : BitVec 51}
    (h : r.selects w = true) (h' : r'.selects w = true) : r = r' := by
  have hinj : ∀ r ∈ opcodeMap, ∀ r' ∈ opcodeMap, cmdOp r.pattern = cmdOp r'.pattern → r = r' := by decide
  exact hinj r hr r' hr' ((cmdOp_of_selects hr h).symm.trans (cmdOp_of_selects hr' h'))

/-- A word is its `op` and the 48 bits below (rule R51). -/
theorem eq_iff_cmdOp_cmdRest {w x : BitVec 51} : w = x ↔ cmdOp w = cmdOp x ∧ cmdRest w = cmdRest x := by
  simp only [← BitVec.toNat_inj, cmdOp_toNat, cmdRest_toNat]
  omega

/-- A row tests `op` and the bits of its mask below (rule R52). -/
theorem OpcodeRow.selects_iff {r : OpcodeRow} (hr : r ∈ opcodeMap) {w : BitVec 51} :
    r.selects w = true ↔ cmdOp w = cmdOp r.pattern ∧ cmdRest w &&& cmdRest r.mask = 0#48 := by
  have hmask : ∀ r ∈ opcodeMap, cmdOp r.mask = BitVec.allOnes 3 ∧ cmdRest r.pattern = 0#48 := by decide
  obtain ⟨hop, hrest⟩ := hmask r hr
  rw [OpcodeRow.selects, beq_iff_eq, eq_iff_cmdOp_cmdRest, cmdOp_and, cmdRest_and, hop, hrest, BitVec.and_allOnes]

/-- BEGIN and FLUSH: the 48 bits below `op` are masked whole. -/
theorem cmdRest_and_allOnes_eq_zero {w : BitVec 51} : cmdRest w &&& 0xFFFFFFFFFFFF#48 = 0#48 ↔ cmdRest w = 0#48 := by
  rw [show 0xFFFFFFFFFFFF#48 = BitVec.allOnes 48 by decide, BitVec.and_allOnes]

/-- SETPWM: the mask below `op` is that of `cmd[31:16]`. -/
theorem cmdRest_and_argHi_eq_zero {w : BitVec 51} : cmdRest w &&& 0x0000FFFF0000#48 = 0#48 ↔ cmdArgHi w = 0#16 := by
  have hthirds (x : BitVec 48) :
      x = 0#48 ↔ x.extractLsb' 32 16 = 0#16 ∧ x.extractLsb' 16 16 = 0#16 ∧ x.extractLsb' 0 16 = 0#16 := by
    simp only [← BitVec.toNat_inj, BitVec.extractLsb'_toNat, Nat.shiftRight_eq_div_pow, BitVec.toNat_ofNat]
    omega
  have hhi : (cmdRest w).extractLsb' 16 16 = cmdArgHi w := by
    apply BitVec.eq_of_toNat_eq
    rw [BitVec.extractLsb'_toNat, cmdRest_toNat, cmdArgHi_toNat, Nat.shiftRight_eq_div_pow]
    omega
  have hmask : (0x0000FFFF0000#48).extractLsb' 32 16 = 0#16 ∧
      (0x0000FFFF0000#48).extractLsb' 16 16 = BitVec.allOnes 16 ∧ (0x0000FFFF0000#48).extractLsb' 0 16 = 0#16 := by decide
  obtain ⟨hm2, hm1, hm0⟩ := hmask
  rw [hthirds, BitVec.extractLsb'_and, BitVec.extractLsb'_and, BitVec.extractLsb'_and, hm2, hm1, hm0, BitVec.and_allOnes,
    hhi]
  simp

theorem beginRow_selects {w : BitVec 51} : opcodeMap[0].selects w = true ↔ cmdOp w = 0b000#3 ∧ cmdRest w = 0#48 := by
  rw [OpcodeRow.selects_iff (List.getElem_mem _), ← cmdRest_and_allOnes_eq_zero]
  exact Iff.rfl

theorem setpctRow_selects {w : BitVec 51} : opcodeMap[1].selects w = true ↔ cmdOp w = 0b001#3 := by
  have hmask : cmdRest opcodeMap[1].mask = 0#48 := by decide
  rw [OpcodeRow.selects_iff (List.getElem_mem _), hmask, BitVec.and_zero]
  exact and_iff_left rfl

theorem setpwmRow_selects {w : BitVec 51} : opcodeMap[2].selects w = true ↔ cmdOp w = 0b010#3 ∧ cmdArgHi w = 0#16 := by
  rw [OpcodeRow.selects_iff (List.getElem_mem _), ← cmdRest_and_argHi_eq_zero]
  exact Iff.rfl

theorem flushRow_selects {w : BitVec 51} : opcodeMap[3].selects w = true ↔ cmdOp w = 0b011#3 ∧ cmdRest w = 0#48 := by
  rw [OpcodeRow.selects_iff (List.getElem_mem _), ← cmdRest_and_allOnes_eq_zero]
  exact Iff.rfl

/-- A word that decodes selects the row of its operation (rule R55). -/
theorem selects_of_decodeCmd {w : BitVec 51} {i : Instr} (h : decodeCmd w = .ok i) :
    ∃ r ∈ opcodeMap, r.selects w = true ∧ r.mnemonic = i.mnemonic := by
  rcases decodeCmd_cases w with ⟨ho, hr, he⟩ | ⟨-, -, he⟩ | ⟨ho, he⟩ | ⟨ho, hr, he⟩ | ⟨-, -, he⟩ | ⟨ho, hr, he⟩ |
    ⟨-, -, he⟩ | ⟨-, he⟩ <;> cases he.symm.trans h
  · exact ⟨_, List.getElem_mem _, beginRow_selects.2 ⟨ho, hr⟩, rfl⟩
  · exact ⟨_, List.getElem_mem _, setpctRow_selects.2 ho, rfl⟩
  · exact ⟨_, List.getElem_mem _, setpwmRow_selects.2 ⟨ho, hr⟩, rfl⟩
  · exact ⟨_, List.getElem_mem _, flushRow_selects.2 ⟨ho, hr⟩, rfl⟩

/-- A word that selects a row decodes (rule R55). -/
theorem decodeCmd_of_selects {w : BitVec 51} {r : OpcodeRow} (hr : r ∈ opcodeMap) (h : r.selects w = true) :
    ∃ i, decodeCmd w = .ok i := by
  have hrows : r = opcodeMap[0] ∨ r = opcodeMap[1] ∨ r = opcodeMap[2] ∨ r = opcodeMap[3] := by
    simpa [opcodeMap] using hr
  rcases hrows with rfl | rfl | rfl | rfl
  · obtain ⟨ho, hz⟩ := beginRow_selects.1 h
    exact ⟨.begin, by simp [decodeCmd, ho, hz]⟩
  · exact ⟨.setpct (cmdChan w) (cmdArg w), by simp [decodeCmd, setpctRow_selects.1 h]⟩
  · obtain ⟨ho, hz⟩ := setpwmRow_selects.1 h
    exact ⟨.setpwm (cmdChan w) (cmdVal w), by simp [decodeCmd, ho, hz]⟩
  · obtain ⟨ho, hz⟩ := flushRow_selects.1 h
    exact ⟨.flush, by simp [decodeCmd, ho, hz]⟩

/-- Settles O28: the words that decode are those that select a row, and the rows differ in `op`. -/
theorem decodingFollowsTheOpcodeMap : Obligations.DecodingFollowsTheOpcodeMap := by
  intro w
  refine ⟨fun i => selects_of_decodeCmd, ⟨fun ⟨e, he⟩ r hr => ?illegal, fun h => ?unselected⟩,
    fun r hr r' hr' => OpcodeRow.eq_of_selects hr hr'⟩
  case illegal =>
    refine Bool.eq_false_iff.2 fun hsel => ?_
    obtain ⟨i, hi⟩ := decodeCmd_of_selects hr hsel
    cases he.symm.trans hi
  case unselected =>
    cases hd : decodeCmd w with
    | error e => exact ⟨e, rfl⟩
    | ok i =>
      obtain ⟨r, hr, hsel, -⟩ := selects_of_decodeCmd hd
      cases (h r hr).symm.trans hsel

/-! ### Illegal words -/

/-- The words that are illegal, by number (rule R56). -/
theorem decodeCmd_error_iff {w : BitVec 51} :
    (∃ e, decodeCmd w = .error e) ↔
      4 ≤ w.toNat / 2 ^ 48 ∨ ((w.toNat / 2 ^ 48 = 0 ∨ w.toNat / 2 ^ 48 = 3) ∧ w.toNat % 2 ^ 48 ≠ 0) ∨
        (w.toNat / 2 ^ 48 = 2 ∧ w.toNat / 2 ^ 16 % 2 ^ 16 ≠ 0) := by
  have hrest : cmdRest w ≠ 0#48 ↔ w.toNat % 2 ^ 48 ≠ 0 := by
    rw [← BitVec.toNat_ne_iff_ne, cmdRest_toNat]
    rfl
  have hhi : cmdArgHi w ≠ 0#16 ↔ w.toNat / 2 ^ 16 % 2 ^ 16 ≠ 0 := by
    rw [← BitVec.toNat_ne_iff_ne, cmdArgHi_toNat]
    rfl
  rw [← cmdOp_toNat, ← hrest, ← hhi]
  rcases decodeCmd_cases w with ⟨ho, hr, he⟩ | ⟨ho, hr, he⟩ | ⟨ho, he⟩ | ⟨ho, hr, he⟩ | ⟨ho, hr, he⟩ | ⟨ho, hr, he⟩ |
    ⟨ho, hr, he⟩ | ⟨ho, he⟩
  · simp [ho, hr, he]
  · simp [ho, hr, he]
  · simp [ho, he]
  · simp [ho, hr, he]
  · simp [ho, hr, he]
  · simp [ho, hr, he]
  · simp [ho, hr, he]
  · simp [ho, he]

/-- Settles O29: a word that is not illegal by its number decodes, and the step reports an illegal one. -/
theorem illegalWordsAreReportedAndIgnored : Obligations.IllegalWordsAreReportedAndIgnored := by
  refine fun w => ⟨fun hgood => ?legal, fun hbad s rest hb hp => ?illegal⟩
  case legal =>
    cases hd : decodeCmd w with
    | ok i => exact ⟨i, rfl⟩
    | error e => exact absurd (decodeCmd_error_iff.1 ⟨e, hd⟩) hgood
  case illegal =>
    obtain ⟨e, he⟩ := decodeCmd_error_iff.2 hbad
    exact step_illegal hb hp he

/-- Settles O21: the port's two formats are a count and a command, and a frame that is not due is refused. -/
theorem frameIsOutputOnly : Obligations.FrameIsOutputOnly := by
  refine ⟨decode_port_ne_writeFrame, fun v s hnot => ?_⟩
  rcases execWriteFrame_cases v s with ⟨hdue, -⟩ | ⟨-, he⟩
  · exact absurd (frameDue_iff.1 hdue) hnot
  · exact he

end Sys2Proof
end

