-- ==== Sys2Proof/Proofs/Frames.lean ====
section
/-! SUPPORT. A frame as bytes of the stream, as bits on the line, and as byte steps of the sequencer. -/

namespace Sys2Proof.Machine

/-! ### The bytes and the bits of a frame -/

/-- Settles O16, from the frame by number and the places of its channels. -/
theorem streamIsItsFrameBytes : Obligations.StreamIsItsFrameBytes := fun cfg m =>
  ⟨fun _ => rfl, fun k _ hj => ⟨frameByte_high cfg m k hj, frameByte_low cfg m k hj⟩,
    fun n => ⟨stream_length cfg m n, fun _ hq => stream_getElem? cfg m hq⟩⟩

theorem serialBits_append (bs cs : List Byte) : serialBits (bs ++ cs) = serialBits bs ++ serialBits cs := by
  simp [serialBits]

/-- A channel on the line, most significant bit first (rules R48 and R99). -/
theorem serialBits_bytes16 (d : Duty) : serialBits (bytes16 d) = (List.range 16).map fun t => d.getLsbD (15 - t) := by
  simp [serialBits, bytes16, serialByte, List.range_succ]

/-- Channel 0 goes out last (rule R92). -/
theorem frameOf_cons (cfg : BitVec 32) (d : Duty) (v : List Duty) : frameOf cfg (d :: v) = frameOf cfg v ++ bytes16 d := by
  simp [frameOf]

/-- The first channel of a frame takes the 16 lowest bits of its word, the others stand above (rule R48). -/
theorem wireWord_cons_bit (d : Duty) (v : List Duty) {i : Nat} (hi : i < 224) :
    (wireWord (d :: v)).getLsbD i = if i < 16 then d.getLsbD i else (wireWord v).getLsbD (i - 16) := by
  rw [wireWord_cons, BitVec.getLsbD_or, BitVec.getLsbD_shiftLeft, BitVec.getLsbD_setWidth]
  split
  · next hlt => simp [hlt, hi]
  · next hge => simp [hge, hi, d.getLsbD_of_ge i (Nat.not_lt.1 hge)]

/-- The bits of a frame of up to twelve channels on the line are those of its word, from the header's first bit down
(rule R48). -/
theorem serialBits_frameOf (v : List Duty) (hv : v.length ≤ 12) :
    serialBits (frameOf Config.cfgWord v) =
      (List.range (32 + 16 * v.length)).map fun t => (wireWord v).getLsbD (31 + 16 * v.length - t) := by
  induction v with
  | nil => decide
  | cons d v ih =>
    rw [List.length_cons] at hv
    have hrange : List.range (32 + 16 * (d :: v).length) =
        List.range (32 + 16 * v.length) ++ (List.range 16).map (32 + 16 * v.length + ·) := by
      rw [← List.range_add, List.length_cons, Nat.mul_succ, Nat.add_assoc]
    rw [frameOf_cons, serialBits_append, serialBits_bytes16, hrange, List.map_append, List.map_map, ih (by omega)]
    congr 1
    · refine List.map_congr_left fun t ht => ?_
      have ht' := List.mem_range.1 ht
      have hidx : 31 + 16 * (v.length + 1) - t - 16 = 31 + 16 * v.length - t := by omega
      rw [List.length_cons, wireWord_cons_bit d v (by omega), if_neg (by omega), hidx]
    · refine List.map_congr_left fun t ht => ?_
      have ht' := List.mem_range.1 ht
      have hidx : 31 + 16 * (v.length + 1) - (32 + 16 * v.length + t) = 15 - t := by omega
      rw [Function.comp_apply, List.length_cons, hidx, wireWord_cons_bit d v (by omega), if_pos (by omega)]

/-- Settles O19: a well-formed frame has twelve channels, and its 224 bits are those of its word. -/
theorem wireWordIsTheSerialFrame : Obligations.WireWordIsTheSerialFrame := by
  intro v hv
  have hlen : v.length = 12 := eq_of_beq hv
  refine ⟨rfl, ?_⟩
  rw [serialBits_frameOf v hlen.le, hlen]

/-! ### A frame as steps of the sequencer -/

/-- Settles O20: the due frame is the sequencer's 28 bytes, and the flush ends where they are the last. -/
theorem writeFrameEmitsTheFrameThatIsDue : Obligations.WriteFrameEmitsTheFrameThatIsDue := by
  intro v k s hv hb hp hk hmax hslots
  have hexec : exec (.writeFrame v) s = seqEmit (frame s.cfg s.ch k) s := hslots ▸ exec_writeFrame_due hb hp
  have hm : s.bufferMapped = true := State.bufferMapped_iff.2 ⟨hv, hmax.ge⟩
  rw [hexec, seqEmit_eq (by omega) hm, frame_length]
  refine ⟨fun hon => congrArg _ ?on, fun hlast => congrArg _ ?last⟩
  case on =>
    rw [seqAdvance_on (by simp only [State.emit_pos, State.emit_nchain]; omega), State.emit_pos, hp]
    rfl
  case last =>
    rw [seqAdvance_finish (by simp only [State.emit_pos, State.emit_nchain]; omega), flushFinish_emit,
      ← List.append_assoc]
    rfl

/-- The `n` bytes of the stream from byte `q` on (rule R47). -/
def bytesFrom (cfg : BitVec 32) (m : Memory) (q n : Nat) : List Byte :=
  (List.range' q n).map fun p => frameByte cfg m (p / 28) (p % 28)

theorem bytesFrom_succ (cfg : BitVec 32) (m : Memory) (q n : Nat) :
    bytesFrom cfg m q (n + 1) = frameByte cfg m (q / 28) (q % 28) :: bytesFrom cfg m (q + 1) n := rfl

@[simp] theorem bytesFrom_length (cfg : BitVec 32) (m : Memory) (q n : Nat) : (bytesFrom cfg m q n).length = n := by
  simp [bytesFrom]

/-- The 28 bytes from a frame boundary on are the frame (rule R47). -/
theorem bytesFrom_frame (cfg : BitVec 32) (m : Memory) (k : Nat) : bytesFrom cfg m (28 * k) 28 = frame cfg m k := by
  rw [bytesFrom, frame_eq_map, List.range'_eq_map_range, List.map_map]
  refine List.map_congr_left fun r hr => ?_
  have hr' := List.mem_range.1 hr
  have hdiv : (28 * k + r) / 28 = k := by omega
  have hmod : (28 * k + r) % 28 = r := by omega
  simp only [Function.comp_apply, hdiv, hmod]

/-- The state with one more byte given to the transport, inside the stream (rule R97). -/
def State.passByte (s : State) (b : Byte) : State := { s.emit [.tx b] with pos := s.pos + 1 }

/-- Bytes given in one are the first of them and then the rest. -/
theorem seqEmit_cons {b : Byte} {bs : List Byte} {s : State} (hm : s.bufferMapped = true)
    (hp : s.pos + 1 < 28 * s.nchain) : seqEmit (b :: bs) s = seqEmit bs (s.passByte b) := by
  have hemit : (s.passByte b).emit (bs.map .tx) = { s.emit ((b :: bs).map .tx) with pos := s.pos + 1 } := by
    simp [State.passByte, State.emit]
  rw [seqEmit_eq (by omega) hm, seqEmit_eq (s := s.passByte b) hp hm, hemit, seqAdvance, seqAdvance, List.length_cons,
    Nat.add_comm bs.length 1, State.emit_pos, ← Nat.add_assoc]
  rfl

theorem seqBytes_succ {n : Nat} {s t : State} (h : seqByte s = .next t) : seqBytes (n + 1) s = seqBytes n t := by
  rw [seqBytes, h]

/-- Byte steps inside the stream are its bytes given in one (rule R97). -/
theorem seqBytes_eq_seqEmit {n : Nat} {s : State} (hm : s.bufferMapped = true) (hn : s.pos + (n + 1) ≤ 28 * s.nchain) :
    seqBytes (n + 1) s = seqEmit (bytesFrom s.cfg s.ch s.pos (n + 1)) s := by
  induction n generalizing s with
  | zero =>
    have hbyte : seqByte s = seqEmit (bytesFrom s.cfg s.ch s.pos 1) s := rfl
    have hnext := seqEmit_eq (bytes := bytesFrom s.cfg s.ch s.pos 1) (by omega) hm
    rw [seqBytes_succ (hbyte.trans hnext), hnext]
    rfl
  | succ n ih =>
    have hlt : s.pos + 1 < 28 * s.nchain := by omega
    have hfirst : seqByte s = .next (s.passByte (frameByte s.cfg s.ch (s.pos / 28) (s.pos % 28))) := seqByte_on hm hlt
    have hrest : s.pos + 1 + (n + 1) ≤ 28 * s.nchain := by omega
    rw [seqBytes_succ hfirst, bytesFrom_succ, seqEmit_cons hm hlt]
    exact ih hm hrest

/-- Settles O40: the frame that is due and its 28 byte steps are the same bytes given by the sequencer. -/
theorem frameIsItsTwentyEightBytes : Obligations.FrameIsItsTwentyEightBytes := by
  intro s k hv hb hp hk hmax
  have hm : s.bufferMapped = true := State.bufferMapped_iff.2 ⟨hv, hmax.ge⟩
  have hbytes : seqBytes 28 s = seqEmit (frame s.cfg s.ch k) s := by
    rw [seqBytes_eq_seqEmit hm (by omega), hp, bytesFrom_frame]
  rw [hbytes, exec_writeFrame_due hb hp, seqEmit_eq (by omega) hm]
  exact ⟨_, rfl, rfl⟩

end Sys2Proof.Machine
end

