-- ==== Sys2Proof/Proofs/Response.lean ====
section
/-! SUPPORT. The return bit of a command (rule R54). -/

namespace Sys2Proof.Machine

/-- A state that has answered by one response has answered by no other. -/
theorem response_unique {u : State} {rs : List Reply} {r r' : Response} (h : u.replies = rs ++ [.response r])
    (h' : u.replies = rs ++ [.response r']) : r = r' := by
  simpa using h.symm.trans h'

/-- BEGIN and FLUSH answer `ret = 0`, performed or refused (rules R67, R69, R93 and R95). -/
theorem exec_ret_false {i : Instr} {s t : State} (hi : i.isCommand = true) (hset : i.isSetter = false)
    (ht : exec i s = .next t) : ∃ st, t.replies = s.replies ++ [.response ⟨false, st⟩] := by
  cases i with
  | begin =>
    rcases execBegin_cases s with ⟨he, -⟩ | ⟨-, -, he⟩
    · cases he.symm.trans ht
      exact ⟨_, rfl⟩
    · cases he.symm.trans ht
      exact ⟨_, rfl⟩
  | flush =>
    rcases execFlush_cases s with ⟨-, he⟩ | ⟨-, -, -, he⟩ | ⟨-, -, -, he⟩
    · cases he.symm.trans ht
      exact ⟨_, rfl⟩
    · cases he.symm.trans ht
      exact ⟨_, rfl⟩
    · cases he.symm.trans ht
  | construct n => cases hi
  | setpct chan arg => cases hset
  | setpwm chan val => cases hset
  | writeFrame v => cases hi

/-- A setter answers `(1, ST_OK)` where a slot reads differently afterwards, and `ret = 0` where none does
(rules R80 to R82). -/
theorem SetterAnswer.ret {chan : Chan} {s t : State} (h : SetterAnswer chan s t) (hwf : s.ch.wf) :
    (t.replies = s.replies ++ [.response ⟨true, .ok⟩] ∧ ∃ j, t.memRead j ≠ s.memRead j) ∨
    ((∃ st, t.replies = s.replies ++ [.response ⟨false, st⟩]) ∧ ∀ j, t.memRead j = s.memRead j) := by
  rcases h with ⟨st, -, rfl⟩ | ⟨hv, hle, v, hne, rfl⟩
  · exact .inr ⟨⟨st, rfl⟩, fun _ => rfl⟩
  · have hmapped : s.mapped chan.toNat = true := State.mapped_iff.2 ⟨hv, hle⟩
    refine .inl ⟨rfl, chan.toNat, ?_⟩
    rw [State.respond_memRead, State.memRead_memWrite hwf, if_pos rfl, if_pos hmapped, State.memRead_of_mapped hv hle]
    exact fun heq => hne (Option.some.inj heq).symm

theorem Response.rsp4_toNat (r : Response) : r.rsp4.toNat = 8 * r.ret.toNat + r.status.code.toNat := by
  obtain ⟨ret, st⟩ := r
  cases ret <;> cases st <;> rfl

/-- The codes 6 and 7 are never produced (rule R110). -/
theorem Status.code_toNat_lt (st : Status) : st.code.toNat < 6 := by
  cases st <;> decide

/-- Settles O27: a setter writes a slot or answers `ret = 0`, and the other commands do neither. -/
theorem returnBitMeansASlotWasWritten : Obligations.ReturnBitMeansASlotWasWritten := by
  refine ⟨fun i s t r hi hwf ht hr => ?ret, Response.rsp4_toNat, rfl, fun st => ?codes⟩
  case ret =>
    cases hset : i.isSetter
    · obtain ⟨st, hst⟩ := exec_ret_false hi hset ht
      obtain rfl := response_unique hr hst
      simp
    · obtain ⟨_, ha⟩ := SetterAnswer.of_exec hset ht
      rcases ha.ret hwf with ⟨hok, hslot⟩ | ⟨⟨st, hst⟩, hsame⟩
      · obtain rfl := response_unique hr hok
        simp [hslot]
      · obtain rfl := response_unique hr hst
        simp [hsame]
  case codes =>
    have hlt := st.code_toNat_lt
    exact ⟨fun h => by simp [h] at hlt, fun h => by simp [h] at hlt⟩

end Sys2Proof.Machine
end

