-- ==== Sys2Proof/Proofs/Percent.lean ====
section
/-! SUPPORT. The fields of a binary32 pattern as numbers, the rational it stands for, and the literal that gives it. -/

namespace Sys2Proof.Machine

/-! ### The fields of a pattern -/

theorem f32Exp_toNat (arg : BitVec 32) : (f32Exp arg).toNat = arg.toNat / 2 ^ 23 % 256 := by
  simp [f32Exp, BitVec.extractLsb'_toNat, Nat.shiftRight_eq_div_pow]

theorem f32Frac_toNat (arg : BitVec 32) : (f32Frac arg).toNat = arg.toNat % 2 ^ 23 := by
  simp [f32Frac, BitVec.extractLsb'_toNat]

theorem f32Sign_toNat (arg : BitVec 32) : (f32Sign arg).toNat = arg.toNat / 2 ^ 31 := by
  have := arg.isLt
  have hbit : f32Sign arg = decide (arg.toNat / 2 ^ 31 % 2 = 1) := Nat.testBit_eq_decide_div_mod_eq
  rcases (by omega : arg.toNat / 2 ^ 31 = 0 ∨ arg.toNat / 2 ^ 31 = 1) with h | h
  · rw [hbit, h]
    rfl
  · rw [hbit, h]
    rfl

theorem f32Exp_eq_iff {arg : BitVec 32} {e : BitVec 8} : f32Exp arg = e ↔ arg.toNat / 2 ^ 23 % 256 = e.toNat := by
  rw [← BitVec.toNat_inj, f32Exp_toNat]

theorem f32Frac_eq_zero_iff {arg : BitVec 32} : f32Frac arg = 0#23 ↔ arg.toNat % 2 ^ 23 = 0 := by
  rw [← BitVec.toNat_inj, f32Frac_toNat]
  rfl

theorem f32Units_subnormal {arg : BitVec 32} (h : f32Exp arg = 0#8) : f32Units arg = (f32Frac arg).toNat := if_pos h

theorem f32Units_normal {arg : BitVec 32} (h : f32Exp arg ≠ 0#8) :
    f32Units arg = (2 ^ 23 + (f32Frac arg).toNat) * 2 ^ ((f32Exp arg).toNat - 1) := if_neg h

/-! ### The rational a pattern stands for -/

/-- A finite pattern is its sign and its magnitude in units of `2^-149` (rule R53). -/
theorem decodePercent_finite {arg : BitVec 32} (h : f32Exp arg ≠ 255#8) :
    decodePercent arg = .finite ((-1) ^ (f32Sign arg).toNat * (f32Units arg : ℤ)) := by
  cases hs : f32Sign arg <;> simp [decodePercent, h, hs]

theorem toRat_decodePercent {arg : BitVec 32} (h : f32Exp arg ≠ 255#8) :
    (decodePercent arg).toRat = some ((-1) ^ (arg.toNat / 2 ^ 31) * (f32Units arg : ℚ) * 2 ^ (-149 : ℤ)) := by
  rw [decodePercent_finite h, Percent.toRat, f32Sign_toNat, zpow_neg, ← div_eq_mul_inv]
  push_cast
  rfl

/-- The units of a normal pattern are `2^(e - 150)` times its significand (rule R53). -/
theorem f32Units_mul_unit {arg : BitVec 32} (h : f32Exp arg ≠ 0#8) :
    (f32Units arg : ℚ) * 2 ^ (-149 : ℤ) =
      (2 ^ 23 + ((arg.toNat % 2 ^ 23 : ℕ) : ℚ)) * 2 ^ (((arg.toNat / 2 ^ 23 % 256 : ℕ) : ℤ) - 150) := by
  have hexp : 0 < arg.toNat / 2 ^ 23 % 256 := Nat.pos_of_ne_zero fun h0 => h (f32Exp_eq_iff.2 h0)
  have hsplit : ((arg.toNat / 2 ^ 23 % 256 : ℕ) : ℤ) - 150 = ((arg.toNat / 2 ^ 23 % 256 - 1 : ℕ) : ℤ) + (-149) := by omega
  rw [f32Units_normal h, f32Exp_toNat, f32Frac_toNat, hsplit, zpow_add₀ two_ne_zero, zpow_natCast]
  push_cast
  ring

/-- Settles O12: NaN and the infinities by their fields, and the others by their units. -/
theorem percentDecodesAsBinary32 : Obligations.PercentDecodesAsBinary32 := by
  intro arg
  refine ⟨fun he hm => ?nan, fun he hm hs => ?posInf, fun he hm hs => ?negInf, fun he => ?subnormal,
    fun hpos hlt => ?normal⟩
  case nan =>
    have hexp : f32Exp arg = 255#8 := f32Exp_eq_iff.2 he
    have hfrac : f32Frac arg ≠ 0#23 := fun h => hm (f32Frac_eq_zero_iff.1 h)
    simp [decodePercent, hexp, hfrac]
  case posInf =>
    have hexp : f32Exp arg = 255#8 := f32Exp_eq_iff.2 he
    have hsign : f32Sign arg = false := Bool.toNat_eq_zero.1 ((f32Sign_toNat arg).trans hs)
    simp [decodePercent, hexp, f32Frac_eq_zero_iff.2 hm, hsign]
  case negInf =>
    have hexp : f32Exp arg = 255#8 := f32Exp_eq_iff.2 he
    have hsign : f32Sign arg = true := Bool.toNat_eq_one.1 ((f32Sign_toNat arg).trans hs)
    simp [decodePercent, hexp, f32Frac_eq_zero_iff.2 hm, hsign]
  case subnormal =>
    have hexp : f32Exp arg = 0#8 := f32Exp_eq_iff.2 he
    rw [toRat_decodePercent (by simp [hexp]), f32Units_subnormal hexp, f32Frac_toNat]
  case normal =>
    have hne (e : BitVec 8) (h : arg.toNat / 2 ^ 23 % 256 ≠ e.toNat) : f32Exp arg ≠ e := mt f32Exp_eq_iff.1 h
    rw [toRat_decodePercent (hne 255#8 hlt.ne), mul_assoc, f32Units_mul_unit (hne 0#8 hpos.ne'), ← mul_assoc]

/-! ### The literal of a pattern -/

/-- A fraction that is a whole number is rounded to it (rule R60). -/
theorem roundHalfEven_mul {q b : Nat} (hb : 0 < b) : roundHalfEven (q * b) b = q := by
  simp [roundHalfEven, hb]

/-- The exponent field and the fraction of a finite pattern below its sign (rule R53). -/
theorem toNat_mod_eq_fields (arg : BitVec 32) : arg.toNat % 2 ^ 31 = (f32Exp arg).toNat * 2 ^ 23 + (f32Frac arg).toNat := by
  rw [f32Exp_toNat, f32Frac_toNat]
  omega

/-- A subnormal's last place is `2^-149` (rule R53). -/
theorem f32Shift_subnormal {arg : BitVec 32} (h : f32Exp arg = 0#8) : f32Shift (f32Units arg) = 0 := by
  have hfrac := (f32Frac arg).isLt
  have hlog : (f32Units arg).log2 < 24 := by
    by_cases h0 : f32Units arg = 0
    · simp [h0]
    · rw [Nat.log2_lt h0, f32Units_subnormal h]
      omega
  rw [f32Shift]
  omega

/-- A normal number's last place is `2^(e - 150)`, its significand having 24 bits (rule R53). -/
theorem f32Shift_normal {arg : BitVec 32} (h : f32Exp arg ≠ 0#8) :
    f32Shift (f32Units arg) = (f32Exp arg).toNat - 1 := by
  have hfrac := (f32Frac arg).isLt
  have hunits := f32Units_normal h
  have hne : f32Units arg ≠ 0 := by
    rw [hunits]
    positivity
  have hlog : (f32Units arg).log2 = 23 + ((f32Exp arg).toNat - 1) := by
    rw [Nat.log2_eq_iff hne, hunits, Nat.add_right_comm, pow_add, pow_add]
    exact ⟨Nat.mul_le_mul_right _ (by omega), Nat.mul_lt_mul_of_pos_right (by omega) (by positivity)⟩
  rw [f32Shift, hlog, Nat.add_sub_cancel_left]

/-- The units of a pattern are its significand at the last place, and the place and the significand make up the pattern
(rules R53 and R60). -/
theorem f32Units_eq_significand (arg : BitVec 32) : ∃ q, f32Units arg = q * 2 ^ f32Shift (f32Units arg) ∧
    f32Shift (f32Units arg) * 2 ^ 23 + q = arg.toNat % 2 ^ 31 := by
  rw [toNat_mod_eq_fields]
  by_cases h : f32Exp arg = 0#8
  · rw [f32Shift_subnormal h, f32Units_subnormal h, h]
    exact ⟨(f32Frac arg).toNat, by simp, by simp⟩
  · have hexp : (f32Exp arg).toNat ≠ 0 := fun h0 => h (BitVec.eq_of_toNat_eq h0)
    rw [f32Shift_normal h, f32Units_normal h]
    exact ⟨2 ^ 23 + (f32Frac arg).toNat, rfl, by omega⟩

/-- The nearest pattern of a fraction equal to a finite magnitude is that magnitude's (rule R60). -/
theorem f32Nearest_of_exact {arg : BitVec 32} (h : f32Exp arg ≠ 255#8) {a b : Nat} (hb : 0 < b)
    (hab : a * 2 ^ 149 = f32Units arg * b) : f32Nearest a b = arg.toNat % 2 ^ 31 := by
  obtain ⟨q, hq, hpattern⟩ := f32Units_eq_significand arg
  have hunits : a * 2 ^ 149 / b = f32Units arg := by rw [hab, Nat.mul_div_cancel _ hb]
  have hround : a * 2 ^ 149 = q * (b * 2 ^ f32Shift (f32Units arg)) := by
    rw [hab]
    nth_rw 1 [hq]
    ring
  have hfinite : arg.toNat % 2 ^ 31 ≤ 0x7F800000 := by
    have hne : arg.toNat / 2 ^ 23 % 256 ≠ 255 := fun he => h (f32Exp_eq_iff.2 he)
    omega
  rw [f32Nearest, hunits, hround, roundHalfEven_mul (by positivity), hpattern, Nat.min_eq_left hfinite]

/-- A pattern is its sign bit above the other 31 (rule R53). -/
theorem ofBool_f32Sign_append (arg : BitVec 32) :
    BitVec.ofBool (f32Sign arg) ++ BitVec.ofNat 31 (arg.toNat % 2 ^ 31) = arg := by
  apply BitVec.eq_of_toNat_eq
  rw [BitVec.toNat_append, BitVec.toNat_ofBool, f32Sign_toNat, BitVec.toNat_ofNat,
    ← Nat.shiftLeft_add_eq_or_of_lt (by omega), Nat.shiftLeft_eq]
  omega

/-- Settles O47: the literal's fraction is the magnitude, so the nearest pattern is the pattern itself, and the sign is the
literal's. -/
theorem exactLiteralsKeepTheirPattern : Obligations.ExactLiteralsKeepTheirPattern := by
  refine ⟨fun arg h => ⟨f32Nearest_of_exact h (by positivity) rfl, fun neg digits places hneg hval => ?_⟩, rfl, rfl, rfl⟩
  rw [bits32, f32Nearest_of_exact h (by positivity) hval, hneg, ofBool_f32Sign_append]

end Sys2Proof.Machine
end

