-- ==== Sys2Proof/Proofs/Lifecycle.lean ====
section
/-! SUPPORT. The lifecycle operations: what a rejected CONSTRUCT writes, when BEGIN is refused, and BEGIN beside a setter. -/

namespace Sys2Proof.Machine

/-! ### BEGIN beside a setter -/

/-- The response of the setters' core and the buffer it leaves depend on `MAXCH` and the buffer alone, and it writes nothing
else (rules R80 to R82). -/
theorem setpwmCore_determined (chan : Chan) (val : Duty) (s : State) :
    ∃ ret st m, ∀ u : State, u.maxch = s.maxch → u.ch = s.ch →
      setpwmCore chan val u = .next ({ u with ch := m }.respond ret st) := by
  rcases setpwmCore_cases chan val s with ⟨hlt, -⟩ | ⟨hle, hsame, -⟩ | ⟨hle, hne, -⟩
  · refine ⟨false, .range, s.ch, fun u hmax hch => ?_⟩
    rw [setpwmCore_range (hmax ▸ hlt), ← hch]
  · refine ⟨false, .unchanged, s.ch, fun u hmax hch => ?_⟩
    rw [setpwmCore_unchanged (hmax ▸ BitVec.not_lt.2 hle) (hch ▸ hsame), ← hch]
  · refine ⟨true, .ok, s.ch.write chan.toNat val, fun u hmax hch => ?_⟩
    rw [setpwmCore_changed (hmax ▸ BitVec.not_lt.2 hle) (hch ▸ hne), ← hch]
    rfl

/-- So it is for both setters on a built block: neither `INIT` nor what has been emitted plays a part (rule R70). -/
theorem exec_setter_determined {i : Instr} (hi : i.isSetter = true) (s : State) :
    ∃ ret st m, ∀ u : State, u.valid = true → u.maxch = s.maxch → u.ch = s.ch →
      exec i u = .next ({ u with ch := m }.respond ret st) := by
  cases i with
  | setpct chan arg =>
    cases hp : scale (decodePercent arg) with
    | none =>
      refine ⟨false, .operand, s.ch, fun u hv _ hch => (execSetpct_nan hv hp).trans ?_⟩
      rw [← hch]
    | some d =>
      obtain ⟨ret, st, m, hcore⟩ := setpwmCore_determined chan (BitVec.ofNat 16 d) s
      exact ⟨ret, st, m, fun u hv hmax hch => (execSetpct_scaled hv hp).trans (hcore u hmax hch)⟩
  | setpwm chan val =>
    obtain ⟨ret, st, m, hcore⟩ := setpwmCore_determined chan val s
    exact ⟨ret, st, m, fun u hv hmax hch => (execSetpwm_built hv).trans (hcore u hmax hch)⟩
  | construct n => cases hi
  | begin => cases hi
  | flush => cases hi
  | writeFrame v => cases hi

/-- Settles O7: the setter finds the same `MAXCH` and buffer before BEGIN and after it, so it leaves the same buffer, and BEGIN
finds a built, uninitialised block either way. -/
theorem beginCommutesWithSetters : Obligations.BeginCommutesWithSetters := by
  intro i s hset hv hi
  obtain ⟨ret, st, m, hsetter⟩ := exec_setter_determined hset s
  have hfirst := hsetter s hv rfl rfl
  have hbegin : exec .begin s = _ := execBegin_configures hv hi
  exact ⟨_, _, (execAll_cons hfirst).trans (execAll_cons (execBegin_configures hv hi)),
    (execAll_cons hbegin).trans (execAll_cons (hsetter _ hv rfl rfl)), rfl, rfl, rfl⟩

/-! ### CONSTRUCT and BEGIN, each alone -/

/-- Settles O4: of the two outcomes of CONSTRUCT, the count leaves the rejection. -/
theorem constructRejectsAnInvalidCount : Obligations.ConstructRejectsAnInvalidCount := by
  intro n s hn
  rcases execConstruct_cases n s with ⟨-, he⟩ | ⟨h1, h2, -⟩
  · exact he
  · omega

/-- BEGIN on a block that is unbuilt or already initialised (rule R69). -/
theorem execBegin_refused {s : State} (h : s.valid = false ∨ s.init = true) :
    execBegin s = .next (s.respond false .config) := by
  rcases execBegin_cases s with ⟨he, -⟩ | ⟨hv, hi, -⟩
  · exact he
  · simp [hv, hi] at h

/-- Settles O6: the word and the record by value, and BEGIN's two outcomes. -/
theorem beginConfiguresTheTransportOnce : Obligations.BeginConfiguresTheTransportOnce :=
  ⟨rfl, ⟨rfl, rfl, rfl, rfl, rfl⟩, fun _ hv hi => execBegin_configures hv hi, fun _ h => execBegin_refused h⟩

end Sys2Proof.Machine
end

