-- ==== Sys2Proof/Proofs/Update.lean ====
section
/-! SUPPORT. The setters SETPWM and SETPCT: their words, their outcomes in the order of the checks, and the slot they name. -/

namespace Sys2Proof.Machine

/-! ### SETPWM -/

/-- A slot of the channel space holds `v` where it reads as `v` (rule R31). -/
theorem State.memRead_eq_some_iff {s : State} {i : Nat} {v : Duty} (hv : s.valid = true) (hi : i ≤ s.maxch.toNat) :
    s.memRead i = some v ↔ s.ch.read i = v := by
  rw [State.memRead_of_mapped hv hi, Option.some.injEq]

/-- The value written to a slot of the channel space is read back (rules R31 and R82). -/
theorem State.memRead_memWrite_same {s : State} (hwf : s.ch.wf) {i : Nat} (hv : s.valid = true) (hi : i ≤ s.maxch.toNat)
    (v : Duty) : (s.memWrite i v).memRead i = some v := by
  rw [State.memRead_memWrite hwf, if_pos rfl, if_pos (State.mapped_iff.2 ⟨hv, hi⟩)]

/-- Settles O8: the word by its fields, and the outcomes of SETPWM, one for each answer of its three checks. -/
theorem setpwmComparesAndWrites : Obligations.SetpwmComparesAndWrites := by
  intro chan val s
  refine ⟨⟨_, rfl, ?word⟩, fun hv => execSetpwm_unbuilt hv, fun hv hlt => ?range, fun hv hle hsame => ?unchanged,
    fun hv hle hne => ⟨?written, fun hwf => State.memRead_memWrite_same hwf hv hle val⟩⟩
  case word =>
    rw [cmdWord_toNat, BitVec.toNat_setWidth_of_le (by decide)]
    rfl
  case range => exact (execSetpwm_built hv).trans (setpwmCore_range hlt)
  case unchanged =>
    exact (execSetpwm_built hv).trans
      (setpwmCore_unchanged (Nat.not_lt.2 hle) ((State.memRead_eq_some_iff hv hle).1 hsame))
  case written =>
    exact (execSetpwm_built hv).trans
      (setpwmCore_changed (Nat.not_lt.2 hle) (mt (State.memRead_eq_some_iff hv hle).2 hne))

/-! ### The slot a command names -/

/-- The operation that names a channel is a setter of it, and answers (rule R75). -/
theorem exec_answer_of_channel {i : Instr} {c : Nat} (hc : i.channel = some c) (s : State) :
    ∃ chan t, chan.toNat = c ∧ exec i s = .next t ∧ SetterAnswer chan s t := by
  cases i with
  | setpct chan arg =>
    obtain ⟨t, ht, ha⟩ := execSetpct_answer chan arg s
    exact ⟨chan, t, Option.some.inj hc, ht, ha⟩
  | setpwm chan val =>
    obtain ⟨t, ht, ha⟩ := execSetpwm_answer chan val s
    exact ⟨chan, t, Option.some.inj hc, ht, ha⟩
  | construct n => cases hc
  | begin => cases hc
  | flush => cases hc
  | writeFrame v => cases hc

/-- A setter leaves the state with its buffer and one response (rules R76, R80 and R84). -/
theorem SetterAnswer.eq_respond {chan : Chan} {s t : State} (h : SetterAnswer chan s t) :
    ∃ ret st m, t = { s with ch := m }.respond ret st := by
  rcases h with ⟨st, -, rfl⟩ | ⟨-, -, v, -, rfl⟩
  · exact ⟨false, st, s.ch, rfl⟩
  · exact ⟨true, .ok, s.ch.write chan.toNat v, rfl⟩

/-- Every slot but the one a setter names reads as before (rule R84). -/
theorem SetterAnswer.memRead_of_ne {chan : Chan} {s t : State} (h : SetterAnswer chan s t) (hwf : s.ch.wf) {j : Nat}
    (hj : j ≠ chan.toNat) : t.memRead j = s.memRead j := by
  rcases h with ⟨st, -, rfl⟩ | ⟨-, -, v, -, rfl⟩
  · rfl
  · rw [State.respond_memRead, State.memRead_memWrite hwf, if_neg hj]

/-- `INIT` plays no part in what a slot reads as (rule R31). -/
theorem State.memRead_of_toBlock_eq {s t : State} {b : Bool} (h : t.toBlock = { s.toBlock with init := b }) (j : Nat) :
    t.memRead j = s.memRead j := by
  rw [State.memRead, State.memRead, State.mapped, State.mapped, h]

/-- A command that names no channel leaves every slot as it was (rules R67 and R93). -/
theorem exec_memRead_of_channel_none {i : Instr} {s t : State} (hi : i.isCommand = true) (hc : i.channel = none)
    (ht : exec i s = .next t) (j : Nat) : t.memRead j = s.memRead j := by
  cases i with
  | begin =>
    rcases execBegin_toBlock ht with hb | hb
    · exact State.memRead_of_toBlock_eq (b := s.init) hb j
    · exact State.memRead_of_toBlock_eq hb j
  | flush => exact State.memRead_of_toBlock_eq (b := s.init) (execFlush_toBlock ht) j
  | construct n => cases hi
  | setpct chan arg => cases hc
  | setpwm chan val => cases hc
  | writeFrame v => cases hi

/-- Settles O9: a setter's answer has the frame of its write, and a command that is no setter writes no slot. -/
theorem settersChangeOnlyTheirSlot : Obligations.SettersChangeOnlyTheirSlot := by
  refine ⟨fun i c s _ hc hwf => ?setter, fun i s t hi hwf ht j hj => ?command⟩
  case setter =>
    obtain ⟨chan, t, rfl, ht, ha⟩ := exec_answer_of_channel hc s
    have hslots : ∀ j, j ≠ chan.toNat → t.memRead j = s.memRead j := fun j hj => ha.memRead_of_ne hwf hj
    obtain ⟨ret, st, m, rfl⟩ := ha.eq_respond
    exact ⟨_, ht, hslots, rfl, rfl, rfl, rfl⟩
  case command =>
    cases hc : i.channel with
    | none => exact exec_memRead_of_channel_none hi hc ht j
    | some c =>
      obtain ⟨chan, u, rfl, hu, ha⟩ := exec_answer_of_channel hc s
      cases hu.symm.trans ht
      exact ha.memRead_of_ne hwf fun h => hj (h ▸ hc)

/-! ### SETPCT -/

/-- A NaN is refused before the channel is looked at (rules R76 and R77). -/
theorem execSetpct_of_decodes_nan {chan : Chan} {arg : BitVec 32} {s : State} (hv : s.valid = true)
    (hnan : decodePercent arg = .nan) : execSetpct chan arg s = .next (s.respond false .operand) :=
  execSetpct_nan hv (scale_eq_none.2 hnan)

/-- SCALE has a 16-bit value for every percent but NaN (rule R79, P3). -/
theorem scale_eq_some {p : Percent} (hp : p ≠ .nan) : ∃ d, scale p = some d ∧ d ≤ 65535 := by
  obtain ⟨d, hd⟩ := Option.ne_none_iff_exists'.1 (mt scale_eq_none.1 hp)
  exact ⟨d, hd, scale_le hd⟩

/-- A slot of the channel space holds the value a SETPWM of it named, whether it was written or held before
(rules R81 and R82). -/
theorem memRead_of_setpwm {chan : Chan} {val : Duty} {s t : State} (hv : s.valid = true) (hwf : s.ch.wf)
    (hle : chan.toNat ≤ s.maxch.toNat) (ht : exec (.setpwm chan val) s = .next t) :
    t.memRead chan.toNat = some val := by
  obtain ⟨u, hu, hlast⟩ := execSetpwm_holdsLastSet chan val hv hwf
  cases hu.symm.trans ht
  rw [State.memRead_of_mapped (hlast.valid_eq.trans hv) (hlast.maxch_eq ▸ hle), hlast.read _ hle]
  simp [lastSet]

/-- Settles O10: a percent that is no NaN has a value of SCALE, and SETPCT is SETPWM of that value. -/
theorem setpctScalesThenSets : Obligations.SetpctScalesThenSets := by
  intro chan arg s
  refine ⟨⟨_, rfl, cmdWord_toNat _ _ _⟩, fun hv => execSetpct_unbuilt hv, fun hv hnan => execSetpct_of_decodes_nan hv hnan,
    fun hv hp => ?scaled⟩
  obtain ⟨d, hd, hle⟩ := scale_eq_some hp
  obtain ⟨t, ht, -⟩ := execSetpwm_answer chan (BitVec.ofNat 16 d) s
  have hsame : execSetpct chan arg s = execSetpwm chan (BitVec.ofNat 16 d) s :=
    (execSetpct_scaled hv hd).trans (execSetpwm_built hv).symm
  refine ⟨d, t, hd, hle, hsame.trans ht, ht, fun hwf hchan => ⟨_, memRead_of_setpwm hv hwf hchan ht, ?_⟩⟩
  rw [BitVec.toNat_ofNat, Nat.mod_eq_of_lt (Nat.lt_succ_of_le hle)]

/-- Settles O11: the two fields make the pattern a NaN. -/
theorem nanPercentIsRefused : Obligations.NanPercentIsRefused := by
  intro chan arg s hv hexp hfrac
  have hnan : decodePercent arg = .nan := (if_pos hexp).trans (if_pos hfrac)
  exact execSetpct_of_decodes_nan hv hnan

/-! ### SCALE -/

/-- The integer quotient of SCALE is the floor of the exact product (rule R78, decision D13). -/
theorem scale_quotient_eq_floor (k : ℤ) :
    k * 655351 / (1000 * unitsPerOne) = ⌊(k : ℚ) / 2 ^ 149 * 655351 / 1000⌋ := by
  have hprod : (k : ℚ) / 2 ^ 149 * 655351 / 1000 = ((k * 655351 : ℤ) : ℚ) / ((1000 * 2 ^ 149 : ℕ) : ℚ) := by
    push_cast
    ring
  rw [hprod, Rat.floor_intCast_div_natCast]
  rfl

/-- The lower bound of SCALE in units of `2^-149` (rule R78). -/
theorem finite_pos_iff {k : ℤ} : (0 : ℚ) < (k : ℚ) / 2 ^ 149 ↔ 0 < k := by
  rw [div_pos_iff_of_pos_right (by positivity), Int.cast_pos]

/-- The upper bound of SCALE in units of `2^-149` (rule R78). -/
theorem hundred_le_finite_iff {k : ℤ} : (100 : ℚ) ≤ (k : ℚ) / 2 ^ 149 ↔ 100 * unitsPerOne ≤ k := by
  rw [le_div_iff₀ (by positivity), unitsPerOne]
  exact_mod_cast Iff.rfl

/-- Settles O13: the bounds of the three clauses are those of SCALE in units of `2^-149`. -/
theorem scaleIsTheTruncatedProduct : Obligations.ScaleIsTheTruncatedProduct := by
  refine ⟨rfl, rfl, fun k p hp => ?_⟩
  obtain rfl : (k : ℚ) / 2 ^ 149 = p := Option.some.inj hp
  refine ⟨fun h0 => ?zero, fun h100 => scale_of_ge_hundred (hundred_le_finite_iff.1 h100), fun h0 h100 => ?between⟩
  case zero => exact scale_of_nonpos (not_lt.1 (mt finite_pos_iff.2 (not_lt.2 h0)))
  case between =>
    have hk : k < 100 * unitsPerOne := not_le.1 (mt hundred_le_finite_iff.2 (not_le.2 h100))
    have hd := scale_between (finite_pos_iff.1 h0) hk
    rw [scale_quotient_eq_floor] at hd
    exact ⟨_, hd, Int.toNat_of_nonneg (Int.floor_nonneg.2 (by positivity)), scale_le hd⟩

/-- SCALE does not fall between two finite percents: it is clamped at the two ends, and its quotient does not fall between them
(rule R79, P4). -/
theorem scale_finite_mono {j k : ℤ} (hjk : j ≤ k) {d e : Nat} (hd : scale (.finite j) = some d)
    (he : scale (.finite k) = some e) : d ≤ e := by
  by_cases hj : j ≤ 0
  · cases (scale_of_nonpos hj).symm.trans hd
    exact Nat.zero_le e
  by_cases hk : 100 * unitsPerOne ≤ k
  · cases (scale_of_ge_hundred hk).symm.trans he
    exact scale_le hd
  · cases (scale_between (by omega) (by omega)).symm.trans hd
    cases (scale_between (by omega) (by omega)).symm.trans he
    exact Int.toNat_le_toNat (Int.ediv_le_ediv (by decide) (by omega))

/-- What the order of the percents holds between: the lowest and any, any and the highest, two finite ones (rule R79). -/
theorem Percent.le_cases {p q : Percent} (h : p.le q) :
    p = .negInf ∨ q = .posInf ∨ ∃ j k, p = .finite j ∧ q = .finite k ∧ j ≤ k := by
  cases p with
  | nan => exact h.elim
  | negInf => exact .inl rfl
  | posInf =>
    cases q with
    | posInf => exact .inr (.inl rfl)
    | nan => exact h.elim
    | negInf => exact h.elim
    | finite k => exact h.elim
  | finite j =>
    cases q with
    | posInf => exact .inr (.inl rfl)
    | finite k => exact .inr (.inr ⟨j, k, rfl, rfl, h⟩)
    | nan => exact h.elim
    | negInf => exact h.elim

/-- Settles O14: the two end points by value, and the order by its three cases. -/
theorem scaleEndPointsRangeAndOrder : Obligations.ScaleEndPointsRangeAndOrder := by
  refine ⟨by decide, by decide, fun p hp => scale_eq_some hp, fun p q d e hpq hd he => ?order⟩
  rcases Percent.le_cases hpq with rfl | rfl | ⟨j, k, rfl, rfl, hjk⟩
  · cases hd
    exact Nat.zero_le e
  · cases he
    exact scale_le hd
  · exact scale_finite_mono hjk hd he

end Sys2Proof.Machine
end

