-- ==== Sys2Proof/Proofs/Stream.lean ====
section
/-! SUPPORT. The stream of a flush in segments: the frame at its place, the bits of its bytes on the line, and the bytes a slot
reaches. -/

namespace Sys2Proof.Machine

/-! ### Segments of the stream -/

theorem bytesFrom_append (cfg : BitVec 32) (m : Memory) (q a b : Nat) :
    bytesFrom cfg m q a ++ bytesFrom cfg m (q + a) b = bytesFrom cfg m q (a + b) := by
  rw [bytesFrom, bytesFrom, ← List.map_append, List.range'_append_1]
  rfl

/-- The stream is its bytes by number, from byte 0 on (rules R47 and R49). -/
theorem stream_eq_bytesFrom (cfg : BitVec 32) (m : Memory) (n : Nat) : stream cfg m n = bytesFrom cfg m 0 (28 * n) := by
  induction n with
  | zero => rfl
  | succ n ih => rw [stream_succ, ih, ← bytesFrom_frame, Nat.mul_succ, ← bytesFrom_append, Nat.zero_add]

/-- The stream before and after byte `q`. -/
theorem stream_eq_append (cfg : BitVec 32) (m : Memory) {n q : Nat} (hq : q ≤ 28 * n) :
    stream cfg m n = bytesFrom cfg m 0 q ++ bytesFrom cfg m q (28 * n - q) := by
  have hjoin := bytesFrom_append cfg m 0 q (28 * n - q)
  rw [Nat.zero_add, Nat.add_sub_cancel' hq] at hjoin
  rw [stream_eq_bytesFrom, hjoin]

theorem stream_take (cfg : BitVec 32) (m : Memory) {n q : Nat} (hq : q ≤ 28 * n) :
    (stream cfg m n).take q = bytesFrom cfg m 0 q := by
  rw [stream_eq_append cfg m hq]
  exact List.take_left' (bytesFrom_length cfg m 0 q)

theorem stream_drop (cfg : BitVec 32) (m : Memory) {n q : Nat} (hq : q ≤ 28 * n) :
    (stream cfg m n).drop q = bytesFrom cfg m q (28 * n - q) := by
  rw [stream_eq_append cfg m hq]
  exact List.drop_left' (bytesFrom_length cfg m 0 q)

/-- The first `k` frames of the stream are the stream of `k` ICs (rule R91). -/
theorem stream_take_frames (cfg : BitVec 32) (m : Memory) {n k : Nat} (hk : k ≤ n) :
    (stream cfg m n).take (28 * k) = stream cfg m k := by
  rw [stream_take cfg m (Nat.mul_le_mul_left 28 hk), stream_eq_bytesFrom]

/-- The frame of IC `k` opens the rest of the stream at byte `28k` (rule R49). -/
theorem stream_drop_frame (cfg : BitVec 32) (m : Memory) {n k : Nat} (hk : k < n) :
    ∃ rest, (stream cfg m n).drop (28 * k) = frame cfg m k ++ rest := by
  have hlen : 28 * n - 28 * k = 28 + (28 * n - 28 * k - 28) := by omega
  rw [stream_drop cfg m (by omega), hlen, ← bytesFrom_append, bytesFrom_frame]
  exact ⟨_, rfl⟩

/-- Settles O17: the frame at byte `28k` opens with the four bytes of its header. -/
theorem headerOpensEveryFrame : Obligations.HeaderOpensEveryFrame := by
  have hheader (cfg : BitVec 32) (m : Memory) (n k : Nat) (hk : k < n) :
      ((stream cfg m n).drop (28 * k)).take 4 = bytes32 cfg := by
    obtain ⟨rest, hrest⟩ := stream_drop_frame cfg m hk
    rw [hrest]
    rfl
  exact ⟨hheader, fun m n k hk => (hheader _ m n k hk).trans (by decide)⟩

/-! ### The bits on the line -/

/-- Bit `t` on the line is bit `7 - (t mod 8)` of byte `t div 8` (rule R99). -/
theorem serialBits_getElem? (bs : List Byte) (t : Nat) :
    (serialBits bs)[t]? = (bs[t / 8]?).map fun b => b.getLsbD (7 - t % 8) := by
  induction bs generalizing t with
  | nil => rfl
  | cons b bs ih =>
    have hcons : serialBits (b :: bs) = serialByte b ++ serialBits bs := rfl
    rw [hcons]
    by_cases ht : t < 8
    · have hdiv : t / 8 = 0 := by omega
      have hmod : t % 8 = t := by omega
      rw [List.getElem?_append_left ht, hdiv, hmod, serialByte, List.getElem?_map, List.getElem?_range ht]
      rfl
    · have hdiv : t / 8 = (t - 8) / 8 + 1 := by omega
      have hmod : t % 8 = (t - 8) % 8 := by omega
      rw [List.getElem?_append_right (Nat.not_lt.1 ht), serialByte_length, ih, hdiv, hmod, List.getElem?_cons_succ]

/-- Bit `t` of the frame of IC `k` on the line (rules R48 and R49). -/
theorem serialBits_stream_frame (cfg : BitVec 32) (m : Memory) {n k t : Nat} (hk : k < n) (ht : t < 224) :
    (serialBits (stream cfg m n))[224 * k + t]? = some ((frameByte cfg m k (t / 8)).getLsbD (7 - t % 8)) := by
  have hdiv : (224 * k + t) / 8 = 28 * k + t / 8 := by omega
  have hmod : (224 * k + t) % 8 = t % 8 := by omega
  rw [serialBits_getElem?, hdiv, hmod, stream_getElem?_frame cfg m hk (by omega), Option.map_some]

/-- The header's bits, the most significant first (rules R33 (a) and R96). -/
theorem frameByte_header_bit (cfg : BitVec 32) (m : Memory) (k : Nat) {t : Nat} (ht : t < 32) :
    (frameByte cfg m k (t / 8)).getLsbD (7 - t % 8) = cfg.getLsbD (31 - t) := by
  have hbit : 24 - 8 * (t / 8) + (7 - t % 8) = 31 - t := by omega
  rw [frameByte, if_pos (by omega), BitVec.getLsbD_extractLsb', hbit, decide_eq_true (by omega), Bool.true_and]

/-- The bits of a channel's two bytes in its frame, the most significant first (rules R33 (b) and R47). -/
theorem frameByte_channel_bit (cfg : BitVec 32) (m : Memory) (k : Nat) {j b : Nat} (hj : j < 12) (hb : b < 16) :
    (frameByte cfg m k ((32 + 16 * (11 - j) + b) / 8)).getLsbD (7 - (32 + 16 * (11 - j) + b) % 8) =
      (m.read (12 * k + j)).getLsbD (15 - b) := by
  have hmod : (32 + 16 * (11 - j) + b) % 8 = b % 8 := by omega
  by_cases hhigh : b < 8
  · have hdiv : (32 + 16 * (11 - j) + b) / 8 = 4 + 2 * (11 - j) := by omega
    have hbit : 8 + (7 - b % 8) = 15 - b := by omega
    rw [hdiv, hmod, frameByte_high cfg m k hj, BitVec.getLsbD_extractLsb', hbit, decide_eq_true (by omega), Bool.true_and]
  · have hdiv : (32 + 16 * (11 - j) + b) / 8 = 5 + 2 * (11 - j) := by omega
    have hbit : 0 + (7 - b % 8) = 15 - b := by omega
    rw [hdiv, hmod, frameByte_low cfg m k hj, BitVec.getLsbD_extractLsb', hbit, decide_eq_true (by omega), Bool.true_and]

/-- Settles O18: the bits are those of the bytes, and a frame's bytes are its header and its channels. -/
theorem serialBitsAreMostSignificantFirst : Obligations.SerialBitsAreMostSignificantFirst := by
  intro cfg m n
  refine ⟨?length, fun t _ => serialBits_getElem? _ t, fun k t hk ht => ?header, fun k j b hk hj hb => ?channel⟩
  case length =>
    rw [serialBits_length, stream_length]
    omega
  case header => rw [serialBits_stream_frame cfg m hk (by omega), frameByte_header_bit cfg m k ht]
  case channel =>
    have hplace : 224 * k + 32 + 16 * (11 - j) + b = 224 * k + (32 + 16 * (11 - j) + b) := by omega
    rw [hplace, serialBits_stream_frame cfg m hk (by omega), frameByte_channel_bit cfg m k hj hb]

/-! ### The bytes a slot reaches -/

/-- A byte of a frame depends on no slot but that of its channel (rule R47). -/
theorem frameByte_write_of_ne (cfg : BitVec 32) {m : Memory} (hwf : m.wf) {i k r : Nat} (v : Duty)
    (h : r < 4 ∨ 12 * k + (11 - (r - 4) / 2) ≠ i) : frameByte cfg (m.write i v) k r = frameByte cfg m k r := by
  by_cases hr : r < 4
  · simp only [frameByte, if_pos hr]
  · have hslot : Config.nch * k + (11 - (r - 4) / 2) ≠ i := h.resolve_left hr
    simp only [frameByte, Memory.read_write hwf.1, if_neg hslot]

/-- Settles O24: the two bytes of the channel are those of the value read back, and any other byte is of another channel. -/
theorem oneSlotChangesTwoBytes : Obligations.OneSlotChangesTwoBytes := by
  intro cfg m n k j v hwf hk hj m' q
  have hread : m'.read (12 * k + j) = v := (Memory.read_write hwf.1 _ v _).trans (if_pos rfl)
  obtain ⟨hhigh, hlow⟩ := stream_getElem?_channel cfg m' hk hj
  rw [hread] at hhigh hlow
  have hnext : q + 1 = 28 * k + 5 + 2 * (11 - j) := by omega
  refine ⟨hhigh, hnext ▸ hlow, fun r hr hr1 => ?other, by rw [stream_length, stream_length]⟩
  case other =>
    by_cases hin : r < 28 * n
    · rw [stream_getElem? cfg m' hin, stream_getElem? cfg m hin, frameByte_write_of_ne cfg hwf v (by omega)]
    · have hout (m₀ : Memory) : (stream cfg m₀ n)[r]? = none :=
        List.getElem?_eq_none (by rw [stream_length]; omega)
      rw [hout, hout]

end Sys2Proof.Machine
end

