-- ==== Sys2Proof/Proofs/Flush.lean ====
section
/-! SUPPORT. The atomic FLUSH: its events by its pseudocode, and commands that write no slot between two flushes. -/

namespace Sys2Proof.Machine

/-! ### The events of one flush -/

theorem flushEvents_length (s : State) : (flushEvents s).length = 28 * s.nchain + 2 := by
  simp [flushEvents]

/-- The events of a flush, frame by frame (rule R93). -/
theorem flushEvents_eq_flatMap (s : State) :
    flushEvents s =
      [.critEnter] ++ ((List.range s.nchain).flatMap fun k => (frame s.cfg s.ch k).map .tx) ++ [.critExit] := by
  rw [flushEvents, stream, List.map_flatMap]
  rfl

/-- Settles O15: the frames written out are the loops of the pseudocode, and every slot read is in the channel space. -/
theorem flushTransmitsTheWholeChain : Obligations.FlushTransmitsTheWholeChain := by
  refine ⟨rfl, fun s h => execFlush_refused h, fun s hv hi hmax => ?performed⟩
  case performed =>
    have hm : s.bufferMapped = true := State.bufferMapped_iff.2 ⟨hv, hmax.ge⟩
    exact ⟨flushEvents s, flushEvents_eq_flatMap s, flushEvents_length s,
      fun k j hk hj => State.memRead_of_mapped hv (by omega), execFlush_performs hv hi hm⟩

/-! ### Two flushes with no slot written between them -/

/-- What a flush sends depends on the block alone (rule R90). -/
theorem flushEvents_of_toBlock_eq {s t : State} (h : t.toBlock = s.toBlock) : flushEvents t = flushEvents s := by
  rw [flushEvents, flushEvents, h]

/-- A FLUSH that completes on a ready block is a performed one (rule R93). -/
theorem execFlush_of_ready {s t : State} (hv : s.valid = true) (hi : s.init = true) (ht : execFlush s = .next t) :
    t = (s.emit (flushEvents s)).respond false .ok := by
  rcases execFlush_cases s with ⟨hnot, -⟩ | ⟨-, -, -, he⟩ | ⟨-, -, -, he⟩
  · simp [hv, hi] at hnot
  · cases he.symm.trans ht
    rfl
  · cases he.symm.trans ht

/-- A setter answers once, and with `ret = 0` it has left the block as it was (rules R54 and R111). -/
theorem SetterAnswer.ret_or_toBlock_eq {chan : Chan} {s t : State} (h : SetterAnswer chan s t) :
    ∃ r, t.replies = s.replies ++ [.response r] ∧ (r.ret = true ∨ t.toBlock = s.toBlock) := by
  rcases h with ⟨st, -, rfl⟩ | ⟨-, -, v, -, rfl⟩
  · exact ⟨_, rfl, .inr rfl⟩
  · exact ⟨_, rfl, .inl rfl⟩

/-- A command on an initialised block answers once, and with `ret = 0` it has left the block as it was: BEGIN is refused there
(rules R54, R69 and R93). -/
theorem exec_ret_or_toBlock_eq {i : Instr} {s t : State} (hcmd : i.isCommand = true) (hi : s.init = true)
    (ht : exec i s = .next t) :
    ∃ r, t.replies = s.replies ++ [.response r] ∧ (r.ret = true ∨ t.toBlock = s.toBlock) := by
  cases i with
  | begin =>
    cases (execBegin_refused (.inr hi)).symm.trans ht
    exact ⟨_, rfl, .inr rfl⟩
  | setpct chan arg =>
    obtain ⟨_, ha⟩ := SetterAnswer.of_exec rfl ht
    exact ha.ret_or_toBlock_eq
  | setpwm chan val =>
    obtain ⟨_, ha⟩ := SetterAnswer.of_exec rfl ht
    exact ha.ret_or_toBlock_eq
  | flush =>
    obtain ⟨st, hst⟩ := exec_ret_false rfl rfl ht
    exact ⟨_, hst, .inr (execFlush_toBlock ht)⟩
  | construct n => cases hcmd
  | writeFrame v => cases hcmd

/-- A command does not clear `INIT` (rule R18). -/
theorem exec_command_init {i : Instr} {s t : State} (hcmd : i.isCommand = true) (hi : s.init = true)
    (ht : exec i s = .next t) : t.init = true := by
  have hne : ∀ n, i ≠ .construct n := by
    rintro n rfl
    cases hcmd
  obtain ⟨-, -, -, -, hinit, -⟩ := onlyResetWritesControlRegisters i s t hne ht
  exact hinit hi

/-- A list of operations that completes has completed its first. -/
theorem execAll_cons_eq_next {i : Instr} {is : List Instr} {s u : State} (h : execAll (i :: is) s = .next u) :
    ∃ t, exec i s = .next t ∧ execAll is t = .next u := by
  cases hi : exec i s with
  | next t => exact ⟨t, rfl, (execAll_cons hi).symm.trans h⟩
  | fault r => simp [execAll, hi] at h
  | refused r => simp [execAll, hi] at h

/-- Commands on an initialised block, none of which answers `ret = 1`, leave the block as it was (rules R54 and R101). -/
theorem execAll_ret_or_toBlock_eq {is : List Instr} {s t : State} (hcmd : ∀ i ∈ is, i.isCommand = true)
    (hi : s.init = true) (ht : execAll is s = .next t) :
    ∃ rs, t.replies = s.replies ++ rs ∧ ((∃ st, Reply.response ⟨true, st⟩ ∈ rs) ∨ t.toBlock = s.toBlock) := by
  induction is generalizing s with
  | nil =>
    cases ht
    exact ⟨[], (List.append_nil _).symm, .inr rfl⟩
  | cons i is ih =>
    obtain ⟨hcmd1, hcmds⟩ := List.forall_mem_cons.1 hcmd
    obtain ⟨u, hu, hrest⟩ := execAll_cons_eq_next ht
    obtain ⟨⟨ret, st⟩, hr, hfirst⟩ := exec_ret_or_toBlock_eq hcmd1 hi hu
    obtain ⟨rs, hrs, hlater⟩ := ih hcmds (exec_command_init hcmd1 hi hu) hrest
    refine ⟨.response ⟨ret, st⟩ :: rs, by rw [hrs, hr, List.append_assoc]; rfl, ?_⟩
    rcases hfirst with rfl | hblock
    · exact .inl ⟨st, List.mem_cons_self⟩
    · rcases hlater with ⟨st', hmem⟩ | hblock'
      · exact .inl ⟨st', List.mem_cons_of_mem _ hmem⟩
      · exact .inr (hblock'.trans hblock)

/-- Settles O23: the block between the two flushes is that of the first, and it determines what they send. -/
theorem flushRepeatsWhileNoSlotIsWritten : Obligations.FlushRepeatsWhileNoSlotIsWritten := by
  intro is s t t' u rs hcmd hv hi ht hall hreplies hret hu
  have hbt : t.toBlock = s.toBlock := execFlush_toBlock ht
  have hit : t.init = true := by rw [hbt, hi]
  have hbt' : t'.toBlock = s.toBlock := by
    obtain ⟨rs', hrs', hor⟩ := execAll_ret_or_toBlock_eq hcmd hit hall
    obtain rfl : rs' = rs := List.append_cancel_left (hrs'.symm.trans hreplies)
    exact (hor.resolve_left fun ⟨st, hmem⟩ => hret st hmem).trans hbt
  have hv' : t'.valid = true := by rw [hbt', hv]
  have hi' : t'.init = true := by rw [hbt', hi]
  obtain rfl := execFlush_of_ready hv hi ht
  obtain rfl := execFlush_of_ready hv' hi' hu
  exact ⟨flushEvents s, rfl, by rw [← flushEvents_of_toBlock_eq hbt']; rfl⟩

end Sys2Proof.Machine
end

