-- ==== Sys2Proof/Proofs/Sequencer.lean ====
section
/-! SUPPORT. The flush sequencer as bytes given in one: steps of whatever size give the bytes of the stream in order, and the
whole stream leaves the state of the atomic FLUSH. -/

namespace Sys2Proof.Machine

/-! ### Bytes given to the transport -/

/-- The state with `n` more bytes of the stream given to the transport, the flush still in progress (rule R97). -/
def State.sent (s : State) (n : Nat) : State :=
  { s.emit ((bytesFrom s.cfg s.ch s.pos n).map .tx) with pos := s.pos + n }

theorem State.sent_zero (s : State) : s.sent 0 = s := by
  have hevents : s.events ++ [] = s.events := List.append_nil _
  show { s with pos := s.pos, events := s.events ++ [] } = s
  rw [hevents]

/-- Bytes inside the stream leave the flush in progress (rule R97). -/
theorem seqEmit_eq_sent {s : State} {n : Nat} (hm : s.bufferMapped = true) (hn : s.pos + n < 28 * s.nchain) :
    seqEmit (bytesFrom s.cfg s.ch s.pos n) s = .next (s.sent n) := by
  rw [seqEmit_eq (by omega) hm, bytesFrom_length]
  exact congrArg _ (seqAdvance_on hn.ne)

/-- The bytes up to the end of the stream end the flush (rule R97). -/
theorem seqEmit_eq_finish {s : State} {bytes : List Byte} (hm : s.bufferMapped = true) (hp : s.pos < 28 * s.nchain)
    (hend : s.pos + bytes.length = 28 * s.nchain) :
    seqEmit bytes s = .next (flushFinish (s.emit (bytes.map .tx))) := by
  rw [seqEmit_eq hp hm]
  exact congrArg _ (seqAdvance_finish hend)

/-- Bytes of the stream given one part after the other are given in one. -/
theorem seqEmit_sent {s : State} {a b : Nat} (hm : s.bufferMapped = true) (ha : s.pos + a < 28 * s.nchain) :
    seqEmit (bytesFrom s.cfg s.ch (s.pos + a) b) (s.sent a) = seqEmit (bytesFrom s.cfg s.ch s.pos (a + b)) s := by
  have hemit : (s.sent a).emit ((bytesFrom s.cfg s.ch (s.pos + a) b).map .tx) =
      { s.emit ((bytesFrom s.cfg s.ch s.pos (a + b)).map .tx) with pos := s.pos + a } := by
    simp [State.sent, State.emit, ← bytesFrom_append]
  rw [seqEmit_eq (s := s.sent a) ha hm, seqEmit_eq (by omega) hm, hemit, seqAdvance, seqAdvance, bytesFrom_length,
    bytesFrom_length, State.emit_pos, ← Nat.add_assoc]
  rfl

/-- Byte steps inside the stream (rule R97). -/
theorem seqBytes_eq_sent {s : State} {n : Nat} (hm : s.bufferMapped = true) (hn : s.pos + n < 28 * s.nchain) :
    seqBytes n s = .next (s.sent n) := by
  cases n with
  | zero => rw [State.sent_zero, seqBytes]
  | succ n => rw [seqBytes_eq_seqEmit hm hn.le, seqEmit_eq_sent hm hn]

/-! ### From the start of a flush to its end -/

/-- The state a refined flush begins in (rule R97). -/
def State.begun (s : State) : State := { s.emit [.critEnter] with busy := true, pos := 0 }

theorem State.begun_sent_pos (s : State) (q : Nat) : (s.begun.sent q).pos = q := Nat.zero_add q

theorem State.begun_sent_events {s : State} {q : Nat} (hq : q ≤ 28 * s.nchain) :
    (s.begun.sent q).events = s.events ++ [.critEnter] ++ ((stream s.cfg s.ch s.nchain).take q).map .tx := by
  rw [stream_take s.cfg s.ch hq]
  rfl

/-- The whole stream given from the start of a refined flush leaves the state of the atomic FLUSH (rules R93 and R97). -/
theorem seqEmit_begun_eq_flush {s : State} (hv : s.valid = true) (hi : s.init = true) (hb : s.busy = false)
    (hp : s.pos = 0) (hn : 1 ≤ s.nchain) (hm : s.bufferMapped = true) :
    seqEmit (bytesFrom s.cfg s.ch 0 (28 * s.nchain)) s.begun = exec .flush s := by
  have hidle : { s.toBlock with busy := false, pos := 0 } = s.toBlock := by rw [← hb, ← hp]
  have hlen : s.begun.pos + (bytesFrom s.cfg s.ch 0 (28 * s.nchain)).length = 28 * s.begun.nchain :=
    (Nat.zero_add _).trans (bytesFrom_length ..)
  have hflush : exec .flush s = .next ((s.emit (flushEvents s)).respond false .ok) := execFlush_performs hv hi hm
  rw [hflush, seqEmit_eq_finish (s := s.begun) hm (Nat.mul_pos (by decide) hn) hlen, ← stream_eq_bytesFrom,
    flushFinish_emit]
  simpa [State.begun, State.emit, State.respond, State.reply, flushEvents] using hidle

/-- While a flush is in progress a start is held (rule R136, assumption 17). -/
theorem flushStart_held {s : State} (hb : s.busy = true) : flushStart s = .next s := if_pos hb

/-- Settles O37: byte steps are the bytes of the stream given in one, and the whole stream is the atomic FLUSH. -/
theorem byteSequencerRefinesFlush : Obligations.ByteSequencerRefinesFlush := by
  refine ⟨fun s hb => flushStart_held hb, fun s hv hi hb hp hn hmax => ?_⟩
  have hm : s.bufferMapped = true := State.bufferMapped_iff.2 ⟨hv, hmax.ge⟩
  refine ⟨s.begun, flushStart_begins hb hv hi, fun q hq => ?inside, ?whole⟩
  case inside =>
    exact ⟨s.begun.sent q, seqBytes_eq_sent (s := s.begun) hm ((Nat.zero_add q).trans_lt hq), rfl,
      s.begun_sent_pos q, State.begun_sent_events hq.le⟩
  case whole =>
    have hpos : 0 < 28 * s.nchain := Nat.mul_pos (by decide) hn
    have hbytes : seqBytes (28 * s.nchain) s.begun = exec .flush s := by
      obtain ⟨n, hsucc⟩ := Nat.exists_eq_add_one.2 hpos
      rw [hsucc, seqBytes_eq_seqEmit (s := s.begun) hm ((Nat.zero_add _).trans hsucc.symm).le, ← hsucc]
      exact seqEmit_begun_eq_flush hv hi hb hp hn hm
    exact ⟨_, hbytes.trans (execFlush_performs hv hi hm), execFlush_performs hv hi hm⟩

/-! ### Steps of a flush in progress -/

/-- How many bytes the next step of a flush in progress gives (rule R97, assumption 17). -/
def State.stepBytes (s : State) : Nat := if s.givesFrame then 28 else 1

/-- A step of a flush in progress gives the next bytes of the stream, one or a frame (rule R97). -/
theorem step_eq_seqEmit {s : State} (hb : s.busy = true) :
    step s = seqEmit (bytesFrom s.cfg s.ch s.pos s.stepBytes) s := by
  cases hf : s.givesFrame
  · rw [step_byte hb hf, State.stepBytes, hf]
    rfl
  · obtain ⟨-, -, hp⟩ := State.givesFrame_iff.1 hf
    have hpos : 28 * (s.pos / 28) = s.pos := by omega
    rw [step_frame hf, ← bytesFrom_frame, hpos, State.stepBytes, hf]
    rfl

theorem State.stepBytes_pos (s : State) : 1 ≤ s.stepBytes := by
  rw [State.stepBytes]
  split <;> decide

/-- A step's bytes do not run past the stream: a frame starts at a multiple of 28 (rules R19 and R49). -/
theorem State.pos_add_stepBytes_le {s : State} (hp : s.pos < 28 * s.nchain) : s.pos + s.stepBytes ≤ 28 * s.nchain := by
  rw [State.stepBytes]
  split
  · next hf =>
    obtain ⟨-, -, hboundary⟩ := State.givesFrame_iff.1 hf
    omega
  · exact hp

/-- Where a step gives a byte. -/
theorem State.stepBytes_byte {s : State} (hg : s.grain = .byte) : s.stepBytes = 1 := by
  rw [State.stepBytes, State.givesFrame_eq_false (.inl (by simp [hg]))]
  rfl

/-- Where a step gives a frame. -/
theorem State.stepBytes_frame {s : State} (hb : s.busy = true) (hg : s.grain = .frame) (hp : s.pos % 28 = 0) :
    s.stepBytes = 28 := by
  rw [State.stepBytes, if_pos (State.givesFrame_iff.2 ⟨hb, hg, hp⟩)]

/-- A run of one step. -/
theorem run_one (s : State) : Host.Core.run core 1 s = step s := by
  have hone : Host.Core.run core 1 s = core.step s := by
    simp only [Host.Core.run]
    cases core.step s <;> rfl
  exact hone

/-- A run that answers a next state has done so in its first step. -/
theorem run_succ_eq_next {n : Nat} {s t : State} (h : Host.Core.run core (n + 1) s = .next t) :
    ∃ u, step s = .next u ∧ Host.Core.run core n u = .next t := by
  cases hs : core.step s with
  | next u => exact ⟨u, hs, (run_next hs).symm.trans h⟩
  | fault r => simp [Host.Core.run, hs] at h
  | refused r => simp [Host.Core.run, hs] at h

/-- A run's last step. -/
theorem run_snoc {n : Nat} {s t : State} (h : Host.Core.run core n s = .next t) :
    Host.Core.run core (n + 1) s = step t := by
  induction n generalizing s with
  | zero =>
    cases h
    exact run_one t
  | succ n ih =>
    obtain ⟨u, hu, hrest⟩ := run_succ_eq_next h
    exact (run_next hu).trans (ih hrest)

section
variable {s : State} {len : Nat} (hb : s.busy = true) (hm : s.bufferMapped = true)
  (hlen : ∀ n, (s.sent (len * n)).stepBytes = len)
include hb hm hlen

/-- A step after `n` steps of `len` bytes each gives what the `n + 1` steps give in one. -/
theorem step_sent {n : Nat} (hn : s.pos + len * n < 28 * s.nchain) :
    step (s.sent (len * n)) = seqEmit (bytesFrom s.cfg s.ch s.pos (len * (n + 1))) s := by
  rw [step_eq_seqEmit (s := s.sent (len * n)) hb, hlen]
  exact seqEmit_sent hm hn

/-- Steps of `len` bytes each inside the stream (rule R97). -/
theorem run_eq_sent {n : Nat} (hn : s.pos + len * n < 28 * s.nchain) :
    Host.Core.run core n s = .next (s.sent (len * n)) := by
  induction n with
  | zero => rw [Nat.mul_zero, State.sent_zero, run_zero]
  | succ n ih =>
    have hbefore : s.pos + len * n < 28 * s.nchain := by
      rw [Nat.mul_succ] at hn
      omega
    exact (run_snoc (ih hbefore)).trans ((step_sent hb hm hlen hbefore).trans (seqEmit_eq_sent hm hn))

/-- Steps of `len` bytes each, the last of them from inside the stream, give their bytes in one (rule R97). -/
theorem run_eq_seqEmit {n : Nat} (hn : s.pos + len * n < 28 * s.nchain) :
    Host.Core.run core (n + 1) s = seqEmit (bytesFrom s.cfg s.ch s.pos (len * (n + 1))) s :=
  (run_snoc (run_eq_sent hb hm hlen hn)).trans (step_sent hb hm hlen hn)

end

/-! ### A FLUSH from the port, in bytes or in frames -/

/-- The first step takes the word of FLUSH and begins the flush (rule R97). -/
theorem run_flush_begun {s : State} {rest : List PortWord} {n : Nat} (hv : s.valid = true) (hi : s.init = true)
    (hb : s.busy = false) (hg : s.grain ≠ .flush) (hport : s.port = .command 0x3000000000000#51 :: rest) :
    Host.Core.run core (n + 1) s = Host.Core.run core n { s with port := rest }.begun :=
  run_next ((step_start hb hport rfl hg).trans (flushStart_begins (s := { s with port := rest }) hb hv hi))

section
variable {s : State} {rest : List PortWord} {len : Nat} (hv : s.valid = true) (hi : s.init = true) (hb : s.busy = false)
  (hmax : s.maxch.toNat + 1 = 12 * s.nchain) (hg : s.grain ≠ .flush) (hport : s.port = .command 0x3000000000000#51 :: rest)
  (hlen : ∀ n, ({ s with port := rest }.begun.sent (len * n)).stepBytes = len)
include hv hi hb hmax hg hport hlen

/-- On a machine whose steps give `len` bytes: the first step of a FLUSH and `n` more, inside the stream (rule R97). -/
theorem run_flush_inside {n : Nat} (hn : len * n < 28 * s.nchain) :
    ∃ w, Host.Core.run core (n + 1) s = .next w ∧ w.busy = true ∧ w.pos = len * n ∧ w.port = rest ∧
      w.events = s.events ++ [.critEnter] ++ ((stream s.cfg s.ch s.nchain).take (len * n)).map .tx := by
  have hm : s.bufferMapped = true := State.bufferMapped_iff.2 ⟨hv, hmax.ge⟩
  have hrun := run_eq_sent (s := { s with port := rest }.begun) rfl hm hlen ((Nat.zero_add _).trans_lt hn)
  exact ⟨_, (run_flush_begun hv hi hb hg hport).trans hrun, rfl, State.begun_sent_pos _ _, rfl,
    State.begun_sent_events (s := { s with port := rest }) hn.le⟩

/-- On a machine whose steps give `len` bytes: the last step leaves the state of the atomic FLUSH (rules R93 and R97). -/
theorem run_flush_whole {n : Nat} (hp : s.pos = 0) (hpos : 1 ≤ s.nchain) (hn : len * n = 28 * s.nchain) :
    ∃ t, Host.Core.run core (n + 1) s = .next t ∧ exec .flush { s with port := rest } = .next t := by
  have hm : s.bufferMapped = true := State.bufferMapped_iff.2 ⟨hv, hmax.ge⟩
  have hflush : exec .flush { s with port := rest } = _ := execFlush_performs hv hi hm
  have hwhole := seqEmit_begun_eq_flush (s := { s with port := rest }) hv hi hb hp hpos hm
  cases n with
  | zero => omega
  | succ n =>
    have hlast : len * n < 28 * s.nchain := by
      have hlen_pos : len ≠ 0 := fun hzero => by
        rw [hzero] at hn
        omega
      rw [Nat.mul_succ] at hn
      omega
    have hrun := run_eq_seqEmit (s := { s with port := rest }.begun) rfl hm hlen ((Nat.zero_add _).trans_lt hlast)
    rw [hn] at hrun
    exact ⟨_, ((run_flush_begun hv hi hb hg hport).trans (hrun.trans hwhole)).trans hflush, hflush⟩

end

/-- Settles O38: each step after the first gives one byte. -/
theorem byteStepsRefineFlush : Obligations.ByteStepsRefineFlush := by
  intro s rest hv hi hb hp hn hmax hgrain hport
  have hg : s.grain ≠ .flush := by simp [hgrain]
  have hlen : ∀ n, ({ s with port := rest }.begun.sent (1 * n)).stepBytes = 1 := fun n => State.stepBytes_byte hgrain
  refine ⟨fun q hq => ?inside, run_flush_whole hv hi hb hmax hg hport hlen hp hn (Nat.one_mul _)⟩
  case inside =>
    have hinside := run_flush_inside hv hi hb hmax hg hport hlen (n := q) (by omega)
    rwa [Nat.one_mul] at hinside

/-- Settles O39: each step after the first gives one frame, since `POS` stays at multiples of 28. -/
theorem frameStepsRefineFlush : Obligations.FrameStepsRefineFlush := by
  intro s rest hv hi hb hp hn hmax hgrain hport
  have hg : s.grain ≠ .flush := by simp [hgrain]
  have hlen : ∀ n, ({ s with port := rest }.begun.sent (28 * n)).stepBytes = 28 := fun n =>
    State.stepBytes_frame rfl hgrain (by rw [State.begun_sent_pos, Nat.mul_mod_right])
  refine ⟨fun k hk => ?inside, run_flush_whole hv hi hb hmax hg hport hlen hp hn rfl⟩
  case inside =>
    have hinside := run_flush_inside hv hi hb hmax hg hport hlen (n := k) (by omega)
    rwa [stream_take_frames s.cfg s.ch hk.le] at hinside

/-! ### The end of a flush in progress -/

/-- From inside a flush, whatever the grain, at most as many steps as there are bytes left give the rest of the stream
(rules R97 and R98). -/
theorem exists_run_eq_seqEmit_rest {d : Nat} {s : State} (hb : s.busy = true) (hm : s.bufferMapped = true)
    (hp : s.pos < 28 * s.nchain) (hd : 28 * s.nchain ≤ s.pos + d) :
    ∃ k, k ≤ d ∧ Host.Core.run core k s = seqEmit (bytesFrom s.cfg s.ch s.pos (28 * s.nchain - s.pos)) s := by
  induction d generalizing s with
  | zero => omega
  | succ d ih =>
    have hstep := step_eq_seqEmit hb
    have hone := s.stepBytes_pos
    rcases (State.pos_add_stepBytes_le hp).eq_or_lt with hend | hon
    · have hrest : 28 * s.nchain - s.pos = s.stepBytes := by omega
      exact ⟨1, by omega, by rw [run_one, hstep, hrest]⟩
    · have hrest : s.stepBytes + (28 * s.nchain - (s.pos + s.stepBytes)) = 28 * s.nchain - s.pos := by omega
      have hleft : 28 * s.nchain ≤ s.pos + s.stepBytes + d := by omega
      obtain ⟨k, hk, hrun⟩ := ih (s := s.sent s.stepBytes) hb hm hon hleft
      refine ⟨k + 1, by omega, ?_⟩
      rw [run_next (hstep.trans (seqEmit_eq_sent hm hon)), hrun, ← hrest]
      exact seqEmit_sent hm hon

/-- Settles O41: the steps give the rest of the stream, of which at most `28 x NMAX` bytes are left, and its end is the end of
the flush. -/
theorem flushInProgressEnds : Obligations.FlushInProgressEnds := by
  intro s h hb
  obtain ⟨hv, -, hp⟩ := h.flushing hb
  have hpos : s.pos < 28 * s.nchain := hp
  have hmax : s.nchain ≤ 5461 := (h.count hv).2
  have hm := h.bufferMapped hv
  obtain ⟨k, hk, hrun⟩ := exists_run_eq_seqEmit_rest (d := 28 * 5461) hb hm hpos (by omega)
  rw [seqEmit_eq_finish hm hpos (by rw [bytesFrom_length]; omega), ← stream_drop s.cfg s.ch hpos.le] at hrun
  refine ⟨k, hk, _, hrun, rfl, rfl, ?bytes⟩
  case bytes =>
    rw [flushFinish_emit, txBytes_append, txBytes_append, txBytes_map_tx]
    exact congrArg _ (List.append_nil _)

end Sys2Proof.Machine
end

