-- ==== Sys2Proof/Proofs/Refusal.lean ====
section
/-! SUPPORT. A command is refused and leaves no trace, or is performed; an unbuilt block refuses every one; and what changes the
lifecycle mode. -/

namespace Sys2Proof.Machine

/-! ### A command is refused or performed -/

/-- What a completed command can have done: it was refused, and the response alone is new (rule R111), or it was performed, with
`ST_OK` and with neither the port nor an earlier reply touched. -/
def CommandAnswer (s t : State) : Prop :=
  (∃ st, st ≠ Status.ok ∧ t = s.respond false st) ∨
    ∃ b es ret, t = { s with toBlock := b, events := es }.respond ret .ok

/-- A setter answers as a command does (rules R80 to R82). -/
theorem SetterAnswer.commandAnswer {chan : Chan} {s t : State} (h : SetterAnswer chan s t) : CommandAnswer s t := by
  rcases h with hrefused | ⟨-, -, v, -, rfl⟩
  · exact .inl hrefused
  · exact .inr ⟨{ s.toBlock with ch := s.ch.write chan.toNat v }, _, _, rfl⟩

/-- BEGIN is refused or performed (rules R67 and R69). -/
theorem execBegin_commandAnswer {s t : State} (ht : execBegin s = .next t) : CommandAnswer s t := by
  rcases execBegin_cases s with ⟨he, -⟩ | ⟨-, -, he⟩
  · cases he.symm.trans ht
    exact .inl ⟨_, by decide, rfl⟩
  · cases he.symm.trans ht
    exact .inr ⟨{ s.toBlock with init := true }, _, _, rfl⟩

/-- A FLUSH that completes is refused or performed (rules R93 and R95). -/
theorem execFlush_commandAnswer {s t : State} (ht : execFlush s = .next t) : CommandAnswer s t := by
  rcases execFlush_cases s with ⟨-, he⟩ | ⟨-, -, -, he⟩ | ⟨-, -, -, he⟩
  · cases he.symm.trans ht
    exact .inl ⟨_, by decide, rfl⟩
  · cases he.symm.trans ht
    exact .inr ⟨s.toBlock, _, _, rfl⟩
  · cases he.symm.trans ht

/-- A command that completes is refused or performed (rule R111). -/
theorem exec_commandAnswer {i : Instr} {s t : State} (hi : i.isCommand = true) (ht : exec i s = .next t) :
    CommandAnswer s t := by
  cases i with
  | begin => exact execBegin_commandAnswer ht
  | setpct chan arg =>
    obtain ⟨_, ha⟩ := SetterAnswer.of_exec rfl ht
    exact ha.commandAnswer
  | setpwm chan val =>
    obtain ⟨_, ha⟩ := SetterAnswer.of_exec rfl ht
    exact ha.commandAnswer
  | flush => exact execFlush_commandAnswer ht
  | construct n => cases hi
  | writeFrame v => cases hi

/-- Settles O26: a refusal adds its response alone, and what else a command can do it answers with `ST_OK`. -/
theorem refusedCommandLeavesNoTrace : Obligations.RefusedCommandLeavesNoTrace := by
  intro i s t hi ht
  rcases exec_commandAnswer hi ht with ⟨st, -, rfl⟩ | ⟨b, es, ret, rfl⟩
  · exact ⟨⟨false, st⟩, rfl, rfl, fun _ => ⟨rfl, rfl, rfl⟩⟩
  · exact ⟨⟨ret, .ok⟩, rfl, rfl, fun hne => absurd rfl hne⟩

/-- Settles O5: each of the four commands tests `VALID` first. -/
theorem unbuiltBlockRefusesEveryCommand : Obligations.UnbuiltBlockRefusesEveryCommand := by
  intro i s hi hv
  cases i with
  | begin => exact execBegin_refused (.inl hv)
  | setpct chan arg => exact execSetpct_unbuilt hv
  | setpwm chan val => exact execSetpwm_unbuilt hv
  | flush => exact execFlush_refused (.inl hv)
  | construct n => cases hi
  | writeFrame v => cases hi

/-! ### The lifecycle mode -/

/-- The buffer and the sequencer's two items play no part in the mode (rule R66). -/
theorem State.mode_of_toBlock_eq {s t : State} {m : Memory} {busy : Bool} {pos : Nat}
    (h : t.toBlock = { s.toBlock with ch := m, busy := busy, pos := pos }) : t.mode = s.mode := by
  rw [State.mode, h, State.mode]

/-- BEGIN leaves the mode, or takes a BUILT block to READY (rules R66 and R67). -/
theorem execBegin_mode {s t : State} (ht : execBegin s = .next t) :
    t.mode = s.mode ∨ (s.mode = .built ∧ t.mode = .ready) := by
  rcases execBegin_cases s with ⟨he, -⟩ | ⟨hv, hi, he⟩
  · cases he.symm.trans ht
    exact .inl rfl
  · cases he.symm.trans ht
    exact .inr ⟨by simp [State.mode, hv, hi], by simp [State.mode, hv]⟩

/-- Settles O43: the setters, FLUSH and a frame write neither `VALID` nor `INIT`, and BEGIN can only leave BUILT for READY. -/
theorem onlyResetAndBeginChangeTheMode : Obligations.OnlyResetAndBeginChangeTheMode := by
  intro i s t ht hne
  cases i with
  | construct n => exact .inl ⟨n, rfl⟩
  | begin => exact .inr ⟨rfl, (execBegin_mode ht).resolve_left hne⟩
  | setpct chan arg =>
    obtain ⟨_, ha⟩ := SetterAnswer.of_exec rfl ht
    obtain ⟨_, hb⟩ := ha.toBlock_eq
    exact absurd (State.mode_of_toBlock_eq hb) hne
  | setpwm chan val =>
    obtain ⟨_, ha⟩ := SetterAnswer.of_exec rfl ht
    obtain ⟨_, hb⟩ := ha.toBlock_eq
    exact absurd (State.mode_of_toBlock_eq hb) hne
  | flush => exact absurd (State.mode_of_toBlock_eq (execFlush_toBlock ht)) hne
  | writeFrame v => exact absurd (State.mode_of_toBlock_eq (execWriteFrame_toBlock ht)) hne

end Sys2Proof.Machine
end

