-- ==== Sys2Proof/Proofs/Hazards.lean ====
section
/-! SUPPORT. The reset event from any state, a flush in progress against the port, and an unbuilt block's items against what a
host can tell. -/

namespace Sys2Proof.Machine

/-! ### The reset event -/

/-- Settles O2: a rejected count clears `VALID`, and the block an admitted count leaves depends on the count alone. -/
theorem resetEventUnbuildsOrBuildsAfresh : Obligations.ResetEventUnbuildsOrBuildsAfresh := by
  refine ⟨rfl, fun n s hn => ⟨_, constructRejectsAnInvalidCount n s hn, rfl, rfl⟩, fun n s s' hn1 hn => ?_⟩
  obtain ⟨t, ht, hblock⟩ := exec_construct_admitted s hn1 hn
  obtain ⟨t', ht', hblock'⟩ := exec_construct_admitted s' hn1 hn
  have hmode : t.mode = .built := by
    rw [State.mode, hblock]
    rfl
  exact ⟨t, t', ht, ht', hblock.trans hblock'.symm, by rw [hblock], hmode, by rw [hblock], execConstruct_events ht⟩

/-! ### A flush in progress -/

theorem exists_eq_tx_of_mem {e : Event} {bytes : List Byte} (he : e ∈ bytes.map .tx) : ∃ b, e = .tx b := by
  obtain ⟨b, -, rfl⟩ := List.mem_map.1 he
  exact ⟨b, rfl⟩

/-- Settles O34: a busy step is the sequencer's, which where it answers gives bytes and moves `POS`, or gives the last bytes and
ends the flush. -/
theorem busyBlockHoldsThePort : Obligations.BusyBlockHoldsThePort := by
  intro s t hb ht
  rw [step_eq_seqEmit hb] at ht
  have hblock := seqEmit_toBlock ht
  rcases seqEmit_cases (bytesFrom s.cfg s.ch s.pos s.stepBytes) s with ⟨-, he⟩ | ⟨-, -, he⟩ | ⟨-, -, -, he⟩ | ⟨-, -, -, he⟩
  · cases he.symm.trans ht
  · cases he.symm.trans ht
  · cases he.symm.trans ht
    refine ⟨rfl, rfl, hblock, _, List.append_assoc _ _ _, fun e hmem => ?_⟩
    rcases List.mem_append.1 hmem with hbyte | hexit
    · exact .inl (exists_eq_tx_of_mem hbyte)
    · exact .inr ⟨List.mem_singleton.1 hexit, rfl⟩
  · cases he.symm.trans ht
    exact ⟨rfl, rfl, hblock, _, rfl, fun e hmem => .inl (exists_eq_tx_of_mem hmem)⟩

/-! ### Only an idle block is unbuilt -/

/-- CONSTRUCT leaves an idle block idle, admitted or rejected (rule R65). -/
theorem execConstruct_busy {n : BitVec 13} {s t : State} (hb : s.busy = false) (ht : execConstruct n s = .next t) :
    t.busy = false := by
  rcases execConstruct_cases n s with ⟨-, he⟩ | ⟨-, -, he⟩
  · cases he.symm.trans ht
    exact hb
  · cases he.symm.trans ht
    rfl

theorem flushStart_valid {s t : State} (ht : flushStart s = .next t) : t.valid = s.valid := by
  rcases flushStart_cases s with ⟨-, he⟩ | ⟨-, -, he⟩ | ⟨-, -, -, he⟩
  · cases he.symm.trans ht
    rfl
  · cases he.symm.trans ht
    rfl
  · cases he.symm.trans ht
    rfl

/-- A step that writes `VALID` leaves the block idle: CONSTRUCT is not taken while a flush is in progress (rule R136). -/
theorem step_valid_or_idle {s t : State} (ht : step s = .next t) : t.valid = s.valid ∨ t.busy = false := by
  cases hb : s.busy with
  | true =>
    obtain ⟨-, -, hblock, -⟩ := busyBlockHoldsThePort s t hb ht
    exact .inl (by rw [hblock])
  | false =>
    rcases step_cases s with ⟨hbusy, -⟩ | ⟨hbusy, -⟩ | ⟨-, -, he⟩ | ⟨-, p, rest, e, -, -, he⟩ |
      ⟨-, -, p, rest, -, -, he⟩ | ⟨-, p, rest, i, -, -, -, -, he⟩
    · cases hb.symm.trans hbusy
    · cases hb.symm.trans hbusy
    · cases he.symm.trans ht
      exact .inl rfl
    · cases he.symm.trans ht
      exact .inl rfl
    · exact .inl (flushStart_valid (s := { s with port := rest }) (he.symm.trans ht))
    · by_cases hi : ∃ n, i = .construct n
      · obtain ⟨n, rfl⟩ := hi
        exact .inr (execConstruct_busy (s := { s with port := rest }) hb (he.symm.trans ht))
      · exact .inl (onlyResetWritesControlRegisters i _ t (not_exists.1 hi) (he.symm.trans ht)).1

/-! ### An unbuilt block's items -/

/-- On a built block the items have a meaning, and states that are alike are equal. -/
theorem Alike.eq_of_built {s s' : State} (h : Alike s s') (hv : s.valid = true) : s = s' := by
  obtain ⟨b, g, p, r, es⟩ := s
  obtain ⟨b', g', p', r', es'⟩ := s'
  obtain rfl : g = g' := h.grain
  obtain rfl : p = p' := h.port
  obtain rfl : r = r' := h.replies
  obtain rfl : es = es' := h.events
  obtain rfl : b = b' := h.block hv
  rfl

/-- A state is alike to itself where an unbuilt block is idle. -/
theorem Alike.of_idle {s : State} (h : s.valid = false → s.busy = false) : Alike s s where
  grain := rfl
  port := rfl
  replies := rfl
  events := rfl
  valid := rfl
  block _ := rfl
  idle hv := ⟨h hv, h hv⟩

theorem Alike.reply {s s' : State} (h : Alike s s') (r : Reply) : Alike (s.reply r) (s'.reply r) :=
  { h with replies := congrArg (· ++ [r]) h.replies }

/-- The same word taken from the same port. -/
theorem Alike.withPort {s s' : State} (h : Alike s s') (rest : List PortWord) :
    Alike { s with port := rest } { s' with port := rest } :=
  { h with port := rfl }

/-- Both answer, and the states they leave are alike. -/
def AnswerAlike (o o' : Host.Outcome State Fault Refusal) : Prop := ∃ t t', o = .next t ∧ o' = .next t' ∧ Alike t t'

/-- Unbuilt blocks stay alike by CONSTRUCT: a rejected count leaves them unbuilt, an admitted one gives both the same block
(rule R131). -/
theorem Alike.execConstruct_of_unbuilt {s s' : State} (h : Alike s s') (hv : s.valid = false) (n : BitVec 13) :
    AnswerAlike (execConstruct n s) (execConstruct n s') := by
  rcases execConstruct_cases n s, execConstruct_cases n s' with
    ⟨⟨hbad, he⟩ | ⟨hn1, hn, he⟩, ⟨hbad', he'⟩ | ⟨hn1', hn', he'⟩⟩
  · have hunbuilt : Alike { s with valid := false } { s' with valid := false } :=
      { h with valid := rfl, block := nofun, idle := fun _ => h.idle hv }
    exact ⟨_, _, he, he', hunbuilt.reply _⟩
  · omega
  · omega
  · refine ⟨_, _, he, he', Alike.reply ?_ _⟩
    exact { h with valid := rfl, block := fun _ => rfl, idle := nofun }

/-- Unbuilt blocks stay alike by every operation of the port: CONSTRUCT aside, both refuse it (rule R113). -/
theorem Alike.exec_of_unbuilt {s s' : State} (h : Alike s s') (hv : s.valid = false) {i : Instr} (hi : ∀ v, i ≠ .writeFrame v) :
    AnswerAlike (exec i s) (exec i s') := by
  have hrefuse (hcmd : i.isCommand = true) : AnswerAlike (exec i s) (exec i s') :=
    ⟨_, _, unbuiltBlockRefusesEveryCommand i s hcmd hv,
      unbuiltBlockRefusesEveryCommand i s' hcmd (h.valid.symm.trans hv), h.reply _⟩
  cases i with
  | construct n => exact h.execConstruct_of_unbuilt hv n
  | begin => exact hrefuse rfl
  | setpct chan arg => exact hrefuse rfl
  | setpwm chan val => exact hrefuse rfl
  | flush => exact hrefuse rfl
  | writeFrame v => exact absurd rfl (hi v)

/-- Unbuilt blocks stay alike by a step: both are idle and find the same word on the port. -/
theorem Alike.step_of_unbuilt {s s' : State} (h : Alike s s') (hv : s.valid = false) :
    AnswerAlike (step s) (step s') := by
  obtain ⟨hb, hb'⟩ := h.idle hv
  have hv' : s'.valid = false := h.valid.symm.trans hv
  cases hp : s.port with
  | nil => exact ⟨s, s', step_idle hb hp, step_idle hb' (h.port.symm.trans hp), h⟩
  | cons p rest =>
    have hp' : s'.port = p :: rest := h.port.symm.trans hp
    cases hd : decode p.code with
    | error e => exact ⟨_, _, step_illegal hb hp hd, step_illegal hb' hp' hd, (h.withPort rest).reply _⟩
    | ok i =>
      by_cases hflush : i = .flush
      · subst hflush
        exact ⟨_, _, step_flush_refused hb hp hd (.inl hv), step_flush_refused hb' hp' hd (.inl hv'),
          (h.withPort rest).reply _⟩
      · have htaken (u : State) : u.startsFlush i = false := State.startsFlush_eq_false.2 fun hi => absurd hi hflush
        rw [step_taken hb hp hd (htaken s), step_taken hb' hp' hd (htaken s')]
        exact (h.withPort rest).exec_of_unbuilt hv fun v hi => decode_port_ne_writeFrame p v (hi ▸ hd)

/-- Settles O42: alike built blocks are equal and take the same step, and unbuilt ones answer and build alike. -/
theorem unbuiltItemsAreUnobservable : Obligations.UnbuiltItemsAreUnobservable := by
  intro s s' t h ht
  cases hv : s.valid with
  | false =>
    obtain ⟨u, u', hu, hu', halike⟩ := h.step_of_unbuilt hv
    cases hu.symm.trans ht
    exact ⟨u', hu', halike⟩
  | true =>
    obtain rfl := h.eq_of_built hv
    refine ⟨t, ht, Alike.of_idle fun hunbuilt => (step_valid_or_idle ht).resolve_left fun hkept => ?_⟩
    exact Bool.false_ne_true (hunbuilt.symm.trans (hkept.trans hv))

end Sys2Proof.Machine
end
